-- ==== Sys2Proof/Word.lean ====
section
/-! DEFINITION. The three word sizes the spec names: a byte (R9), the 48-bit command word (R60) and
the 7-bit bus address (R130). -/

namespace Sys2Proof

/-- A byte: an operand field, a framebuffer cell, a font column, a bus payload element (R46). -/
abbrev Byte := BitVec 8

/-- One command, CMD_W = 48 bits (R60). -/
abbrev CommandWord := BitVec 48

/-- A device address on the bus, 7 bits (R7 DEV_ADDR, R130). -/
abbrev BusAddress := BitVec 7

end Sys2Proof
end

