-- ==== Sys2Proof/Config.lean ====
section
/-! DEFINITION. What is fixed for the machine: the constants of R7, the record of the OPEN parameters
(R7, 92_eei_decisions.md "Open parameters, collected") and the one free value, the answers of the
environment that a state does not list. -/

namespace Sys2Proof

/-- The answer of the environment to one bus transaction (R130). -/
inductive BusAnswer where
  /-- The address and every byte were acknowledged. -/
  | ok
  /-- No acknowledgment, bus error or timeout. -/
  | fail
deriving DecidableEq, Repr, Inhabited

/-- The OPEN parameters that the hardware reads. A state carries them as plain data, no step changes
them, and a statement holds for every value of them (log entry 2). T_SETTLE is timing only (R183, log
entry 9); FormatFixed is host-side and an argument of `printFloat` (R122). -/
structure Params where
  /-- FONT as the flat array of R110: column i of code ch at offset (ch - 32) * 5 + i. -/
  font : List Byte
  /-- CTRL_CMD, the byte that frames a command payload (R70). -/
  ctrlCmd : Byte
  /-- CTRL_DATA, the byte that frames a data payload (R70). -/
  ctrlData : Byte
  /-- INIT_SEQ, one byte string per named configuration command (R136). -/
  initSeq : List (List Byte)
  /-- WINDOW_SEQ, the byte strings that set the full-screen window (R139). -/
  windowSeq : List (List Byte)
deriving DecidableEq, Repr

namespace Config

/-- WIDTH, pixels (R7). -/
@[simp] abbrev width : Nat := 128

/-- HEIGHT, pixels (R7). -/
@[simp] abbrev height : Nat := 64

/-- FB_BYTES = WIDTH * HEIGHT / 8 (R7, R20). -/
@[simp] abbrev fbBytes : Nat := 1024

/-- PAGES = HEIGHT / 8 (R7). -/
@[simp] abbrev pages : Nat := 8

/-- FONT_FIRST (R7). -/
@[simp] abbrev fontFirst : Nat := 32

/-- FONT_LAST (R7). -/
@[simp] abbrev fontLast : Nat := 90

/-- GLYPHS = FONT_LAST - FONT_FIRST + 1 (R7). -/
@[simp] abbrev glyphs : Nat := 59

/-- GLYPH_COLS (R7). -/
@[simp] abbrev glyphCols : Nat := 5

/-- Bits the blitter tests in one font column (R114); bit 7 of a legal font is zero (R112). -/
@[simp] abbrev glyphBits : Nat := 8

/-- CHAR_ADVANCE, pixels (R7). -/
@[simp] abbrev charAdvance : Nat := 6

/-- DEV_ADDR (R7). -/
@[simp] abbrev devAddr : BusAddress := 0x3C#7

/-- CHUNK, framebuffer bytes per data transaction (R7). -/
@[simp] abbrev chunk : Nat := 16

/-- N_CHUNKS = ceil(FB_BYTES / CHUNK) (R7). -/
@[simp] abbrev nChunks : Nat := 64

/-- Number of configuration commands (R136). -/
@[simp] abbrev nInit : Nat := 13

/-- BUS_CLOCK_HZ (R7, R181): recorded, and no rule reads it. -/
abbrev busClockHz : Nat := 400000

/-- TXN_TIMEOUT_MS (R7, R182): recorded, and no rule reads it. -/
abbrev txnTimeoutMs : Nat := 1000

/-- FREE VALUE (R14, U9; log entry 3). The environment's answer to the n-th transaction of the bus
trace where `State.env` lists no answer for it. It has no body: nothing can be proved of its value. -/
opaque busAnswer : Nat → BusAnswer

end Config

end Sys2Proof
end

