-- ==== Sys2Proof/Syntax.lean ====
section
/-! DEFINITION. The command set: one constructor per row of spec/opcode_table.json (R13, R64). -/

namespace Sys2Proof

/-- A decoded command. Each constructor carries exactly the operand fields its format uses (R62), as
the unsigned bytes of the command word (R63); the fields its format does not use are gone (R65). -/
inductive Instr where
  /-- OP 0x01, format Z (R80). -/
  | clear
  /-- OP 0x02, format P: x = A, y = B, color = K (R81). -/
  | setPixel (x y k : Byte)
  /-- OP 0x03, format Q: x0 = A, y0 = B, x1 = C, y1 = D, color = K (R90). -/
  | drawLine (x0 y0 x1 y1 k : Byte)
  /-- OP 0x04, format Q: x = A, y = B, w = C, h = D, color = K (R100). -/
  | drawRect (x y w h k : Byte)
  /-- OP 0x05, format Q: x = A, y = B, w = C, h = D, color = K (R101). -/
  | fillRect (x y w h k : Byte)
  /-- OP 0x06, format G: x = A, y = B, character code = C (R114). -/
  | drawChar (x y ch : Byte)
  /-- OP 0x07, reserved for the unimplemented font hook: no operands (R66). -/
  | reservedSetFont
  /-- OP 0x10, format Z (R135). -/
  | init
  /-- OP 0x11, format Z (R137). -/
  | display
deriving DecidableEq, Repr

end Sys2Proof
end

