-- ==== Sys2Proof/WellFormed.lean ====
section
/-! DEFINITION. What data the spec accepts: every command term is legal, and a parameter record meets
the constraints of R111, R112, R110 and R136. -/

namespace Sys2Proof

/-- Every operand of every command is an unsigned 8-bit integer and every value of it is legal (R103,
R190, R18 "every word is accepted"). The type `Byte` already holds exactly those values, so no
constructor needs a check. -/
def Instr.wf : Instr → Bool
  | .clear => true
  | .setPixel _ _ _ => true
  | .drawLine _ _ _ _ _ => true
  | .drawRect _ _ _ _ _ => true
  | .fillRect _ _ _ _ _ => true
  | .drawChar _ _ _ => true
  | .reservedSetFont => true
  | .init => true
  | .display => true

/-- FONT has GLYPHS * GLYPH_COLS = 295 bytes (R110). -/
def Params.fontSized (p : Params) : Bool :=
  p.font.length == Config.glyphs * Config.glyphCols

/-- The space glyph is blank (R111). -/
def Params.spaceBlank (p : Params) : Bool :=
  (p.font.take Config.glyphCols).all (· == 0#8)

/-- Bit 7 of every font byte is zero (R112). -/
def Params.bit7Clear (p : Params) : Bool :=
  p.font.all fun b => !b.getLsbD 7

/-- INIT_SEQ has one entry per named configuration command, 13 of them (R136). -/
def Params.initSized (p : Params) : Bool :=
  p.initSeq.length == Config.nInit

/-- A legal parameter record: the constraints the spec puts on the OPEN parameters
(92_eei_decisions.md "Open parameters, collected"); every other value is free. -/
def Params.wf (p : Params) : Bool :=
  p.fontSized && p.spaceBlank && p.bit7Clear && p.initSized

end Sys2Proof
end

