-- ==== Sys2Proof/Decode.lean ====
section
/-! DEFINITION. The command word: its six fields, the opcode map, the total decoder, the encoder and
the byte order of a serialised word (30_encoding.md). -/

namespace Sys2Proof

/-- Field OP, bits [47:40] (R61). -/
def opField (w : CommandWord) : Byte := w.extractLsb' 40 8

/-- Field A, bits [39:32] (R61). -/
def aField (w : CommandWord) : Byte := w.extractLsb' 32 8

/-- Field B, bits [31:24] (R61). -/
def bField (w : CommandWord) : Byte := w.extractLsb' 24 8

/-- Field C, bits [23:16] (R61). -/
def cField (w : CommandWord) : Byte := w.extractLsb' 16 8

/-- Field D, bits [15:8] (R61). -/
def dField (w : CommandWord) : Byte := w.extractLsb' 8 8

/-- Field K, bits [7:0] (R61). -/
def kField (w : CommandWord) : Byte := w.extractLsb' 0 8

/-- The word with the given six fields, OP in the most significant byte (R61). -/
def mkWord (op a b c d k : Byte) : CommandWord := op ++ a ++ b ++ c ++ d ++ k

/-- The opcode of each command (R64, R66). -/
def Instr.opcode : Instr → Byte
  | .clear => 0x01#8
  | .setPixel _ _ _ => 0x02#8
  | .drawLine _ _ _ _ _ => 0x03#8
  | .drawRect _ _ _ _ _ => 0x04#8
  | .fillRect _ _ _ _ _ => 0x05#8
  | .drawChar _ _ _ => 0x06#8
  | .reservedSetFont => 0x07#8
  | .init => 0x10#8
  | .display => 0x11#8

/-- Why the decoder names no command for a word. -/
inductive DecodeError where
  /-- The opcode is none of R64's: 0x00, 0x08 to 0x0F, 0x12 to 0xFF (R67). -/
  | illegalOpcode (op : Byte)
deriving DecidableEq, Repr

/-- Decoding by the opcode alone; a field the format does not use takes no part (R64, R65, R73). The
reserved opcode 0x07 has a constructor of its own, with no operands (R66). -/
def decode (w : CommandWord) : Except DecodeError Instr :=
  let op := opField w
  if op = 0x01#8 then .ok .clear
  else if op = 0x02#8 then .ok (.setPixel (aField w) (bField w) (kField w))
  else if op = 0x03#8 then
    .ok (.drawLine (aField w) (bField w) (cField w) (dField w) (kField w))
  else if op = 0x04#8 then
    .ok (.drawRect (aField w) (bField w) (cField w) (dField w) (kField w))
  else if op = 0x05#8 then
    .ok (.fillRect (aField w) (bField w) (cField w) (dField w) (kField w))
  else if op = 0x06#8 then .ok (.drawChar (aField w) (bField w) (cField w))
  else if op = 0x07#8 then .ok .reservedSetFont
  else if op = 0x10#8 then .ok .init
  else if op = 0x11#8 then .ok .display
  else .error (.illegalOpcode op)

/-- The word of a command, with zero in the fields its format does not use (R62, R65, R71). -/
def encode : Instr → CommandWord
  | .clear => mkWord 0x01#8 0 0 0 0 0
  | .setPixel x y k => mkWord 0x02#8 x y 0 0 k
  | .drawLine x0 y0 x1 y1 k => mkWord 0x03#8 x0 y0 x1 y1 k
  | .drawRect x y w h k => mkWord 0x04#8 x y w h k
  | .fillRect x y w h k => mkWord 0x05#8 x y w h k
  | .drawChar x y ch => mkWord 0x06#8 x y ch 0 0
  | .reservedSetFont => mkWord 0x07#8 0 0 0 0 0
  | .init => mkWord 0x10#8 0 0 0 0 0
  | .display => mkWord 0x11#8 0 0 0 0 0

/-- A word as the six bytes a platform moves: OP, A, B, C, D, K, most significant first (R69). -/
def wordBytes (w : CommandWord) : List Byte :=
  [opField w, aField w, bField w, cField w, dField w, kField w]

/-- The word of six serialised bytes; any other number of bytes is no word (R60, R69). -/
def wordOfBytes : List Byte → Option CommandWord
  | [op, a, b, c, d, k] => some (mkWord op a b c d k)
  | _ => none

/-- The command the decoder reads from a row's bits, numbered as spec/opcode_table.json numbers them:
the table has one 48-bit word per row, bit 0 its least significant bit (R9, R64). Bits at and above
`nbits` are zero. -/
def decodeTableWord (nbits w : Nat) : Option Instr :=
  match decode (BitVec.ofNat 48 (w % 2 ^ nbits)) with
  | .ok i => some i
  | .error _ => none

end Sys2Proof
end

