-- ==== Sys2Proof/Machine/Defaults.lean ====
section
/-! DEFINITION. The default values the spec shows for the OPEN parameters (43_glyph_text.md section 5,
R136, R139, R7). Each is marked there "from general knowledge, not in source": PRESUMED, log entry 2. They
are the parameter values of `State.reset` only; no statement rests on them. -/

namespace Sys2Proof.Machine

/-- Reference font, codes 32 to 46, one glyph a row, column 0 first. -/
def fontRows1 : List (List Byte) := [
  [0x00, 0x00, 0x00, 0x00, 0x00],  -- 32
  [0x00, 0x00, 0x5F, 0x00, 0x00],  -- 33
  [0x00, 0x07, 0x00, 0x07, 0x00],  -- 34
  [0x14, 0x7F, 0x14, 0x7F, 0x14],  -- 35
  [0x24, 0x2A, 0x7F, 0x2A, 0x12],  -- 36
  [0x23, 0x13, 0x08, 0x64, 0x62],  -- 37
  [0x36, 0x49, 0x55, 0x22, 0x50],  -- 38
  [0x00, 0x05, 0x03, 0x00, 0x00],  -- 39
  [0x00, 0x1C, 0x22, 0x41, 0x00],  -- 40
  [0x00, 0x41, 0x22, 0x1C, 0x00],  -- 41
  [0x08, 0x2A, 0x1C, 0x2A, 0x08],  -- 42
  [0x08, 0x08, 0x3E, 0x08, 0x08],  -- 43
  [0x00, 0x50, 0x30, 0x00, 0x00],  -- 44
  [0x08, 0x08, 0x08, 0x08, 0x08],  -- 45
  [0x00, 0x60, 0x60, 0x00, 0x00]  -- 46
]

/-- Reference font, codes 47 to 61, one glyph a row, column 0 first. -/
def fontRows2 : List (List Byte) := [
  [0x20, 0x10, 0x08, 0x04, 0x02],  -- 47
  [0x3E, 0x51, 0x49, 0x45, 0x3E],  -- 48
  [0x00, 0x42, 0x7F, 0x40, 0x00],  -- 49
  [0x42, 0x61, 0x51, 0x49, 0x46],  -- 50
  [0x21, 0x41, 0x45, 0x4B, 0x31],  -- 51
  [0x18, 0x14, 0x12, 0x7F, 0x10],  -- 52
  [0x27, 0x45, 0x45, 0x45, 0x39],  -- 53
  [0x3C, 0x4A, 0x49, 0x49, 0x30],  -- 54
  [0x01, 0x71, 0x09, 0x05, 0x03],  -- 55
  [0x36, 0x49, 0x49, 0x49, 0x36],  -- 56
  [0x06, 0x49, 0x49, 0x29, 0x1E],  -- 57
  [0x00, 0x36, 0x36, 0x00, 0x00],  -- 58
  [0x00, 0x56, 0x36, 0x00, 0x00],  -- 59
  [0x00, 0x08, 0x14, 0x22, 0x41],  -- 60
  [0x14, 0x14, 0x14, 0x14, 0x14]  -- 61
]

/-- Reference font, codes 62 to 76, one glyph a row, column 0 first. -/
def fontRows3 : List (List Byte) := [
  [0x41, 0x22, 0x14, 0x08, 0x00],  -- 62
  [0x02, 0x01, 0x51, 0x09, 0x06],  -- 63
  [0x32, 0x49, 0x79, 0x41, 0x3E],  -- 64
  [0x7E, 0x11, 0x11, 0x11, 0x7E],  -- 65
  [0x7F, 0x49, 0x49, 0x49, 0x36],  -- 66
  [0x3E, 0x41, 0x41, 0x41, 0x22],  -- 67
  [0x7F, 0x41, 0x41, 0x22, 0x1C],  -- 68
  [0x7F, 0x49, 0x49, 0x49, 0x41],  -- 69
  [0x7F, 0x09, 0x09, 0x01, 0x01],  -- 70
  [0x3E, 0x41, 0x41, 0x51, 0x32],  -- 71
  [0x7F, 0x08, 0x08, 0x08, 0x7F],  -- 72
  [0x00, 0x41, 0x7F, 0x41, 0x00],  -- 73
  [0x20, 0x40, 0x41, 0x3F, 0x01],  -- 74
  [0x7F, 0x08, 0x14, 0x22, 0x41],  -- 75
  [0x7F, 0x40, 0x40, 0x40, 0x40]  -- 76
]

/-- Reference font, codes 77 to 90, one glyph a row, column 0 first. -/
def fontRows4 : List (List Byte) := [
  [0x7F, 0x02, 0x04, 0x02, 0x7F],  -- 77
  [0x7F, 0x04, 0x08, 0x10, 0x7F],  -- 78
  [0x3E, 0x41, 0x41, 0x41, 0x3E],  -- 79
  [0x7F, 0x09, 0x09, 0x09, 0x06],  -- 80
  [0x3E, 0x41, 0x51, 0x21, 0x5E],  -- 81
  [0x7F, 0x09, 0x19, 0x29, 0x46],  -- 82
  [0x46, 0x49, 0x49, 0x49, 0x31],  -- 83
  [0x01, 0x01, 0x7F, 0x01, 0x01],  -- 84
  [0x3F, 0x40, 0x40, 0x40, 0x3F],  -- 85
  [0x1F, 0x20, 0x40, 0x20, 0x1F],  -- 86
  [0x7F, 0x20, 0x18, 0x20, 0x7F],  -- 87
  [0x63, 0x14, 0x08, 0x14, 0x63],  -- 88
  [0x03, 0x04, 0x78, 0x04, 0x03],  -- 89
  [0x61, 0x51, 0x49, 0x45, 0x43]  -- 90
]

/-- The reference font as the flat array of R110. -/
def defaultFont : List Byte := (fontRows1 ++ fontRows2 ++ fontRows3 ++ fontRows4).flatten

/-- Default INIT_SEQ (R136): clock divider, multiplex ratio, offset, start line, charge pump enable,
addressing mode, segment remap, scan direction, COM pin config, contrast, pre-charge, VCOM level,
display-on. -/
def defaultInitSeq : List (List Byte) := [
  [0xD5, 0x80], [0xA8, 0x3F], [0xD3, 0x00], [0x40], [0x8D, 0x14], [0x20, 0x00], [0xA1],
  [0xC8], [0xDA, 0x12], [0x81, 0xCF], [0xD9, 0xF1], [0xDB, 0x40], [0xAF]]

/-- Default WINDOW_SEQ (R139): column window 0 to 127, page window 0 to 7. -/
def defaultWindowSeq : List (List Byte) := [[0x21, 0x00, 0x7F], [0x22, 0x00, 0x07]]

/-- Every OPEN parameter at the spec's default. -/
def defaultParams : Params where
  font := defaultFont
  ctrlCmd := 0x00#8
  ctrlData := 0x40#8
  initSeq := defaultInitSeq
  windowSeq := defaultWindowSeq

end Sys2Proof.Machine
end

