-- ==== Sys2Proof/Machine/State.lean ====
section
/-! DEFINITION. The machine's state as plain data (10_state.md), its launch states (R19) and the state
after reset (R31, R171). -/

namespace Sys2Proof.Machine

/-- Framebuffer storage: (byte index, byte) pairs in canonical form, indices strictly rising, no index
outside the framebuffer, no entry equal to what an unlisted index reads as (`Memory.wf`). -/
abbrev Memory := List Host.Cell

/-- The device lifecycle register DEV (R22). The reserved encoding 0b11 is no value of it. -/
inductive Dev where
  /-- No INIT command has run since reset. -/
  | uninit
  /-- An INIT command saw the probe answered. -/
  | initialized
  /-- An INIT command saw the probe fail. -/
  | failed
deriving DecidableEq, Repr

/-- The completion codes (R68); no other code is ever emitted. Their byte values are
`completionByte`. -/
inductive CompletionCode where
  /-- 0x00 OK. -/
  | ok
  /-- 0x01 WARN_NOT_INIT (R154). -/
  | warnNotInit
  /-- 0x02 ERR_PROBE (R151). -/
  | errProbe
  /-- 0x03 ERR_TRANSFER (R152). -/
  | errTransfer
  /-- 0x04 ERR_ILLEGAL (R67). -/
  | errIllegal
deriving DecidableEq, Repr

/-- One record of the bus trace: a write transaction and its answer (R29, R130). -/
structure BusRecord where
  address : BusAddress
  payload : List Byte
  answer : BusAnswer
deriving DecidableEq, Repr

/-- Everything the spec gives the machine (R12, R20 to R32), and the model-level lists of R29. -/
structure State where
  /-- FB, 1024 bytes (R20). -/
  fb : Memory
  /-- DEV (R22). -/
  dev : Dev
  /-- FONT (R24) and the other OPEN parameters, constant for a run (R7). -/
  cfg : Params
  /-- The command stream: the words not yet taken, head first (R29). -/
  stream : List CommandWord
  /-- The position in the host's command list (R27). -/
  index : Nat
  /-- The completion list, oldest first (R29). -/
  completions : List CompletionCode
  /-- How many completion codes the host has read (R18). -/
  codesRead : Nat
  /-- The bus trace, oldest first (R29). -/
  trace : List BusRecord
  /-- The environment's answers to the next transactions (R14, R134); past its end the answers are
  the free value `Config.busAnswer` at the transaction's place in the trace (log entry 3). -/
  env : List BusAnswer
deriving DecidableEq, Repr

/-- The block has no trap and no hang: no step of it ends in a fault (R15, R155). The type has no
constructor, so no meaning can answer one. -/
inductive Fault where
deriving DecidableEq, Repr

/-- Why a step can have no meaning. -/
inductive Refusal where
  /-- A command of the opcode table without a meaning in this model, by its mnemonic; only an arm of
  `exec` could raise it, and none does. Safe: the model would stop where the hardware goes on. -/
  | notModelled (mnemonic : String)
deriving DecidableEq, Repr

/-- The launch states of R19: `DEV = UNINIT`, empty completion list and bus trace, no command in
progress; the parameters, the contents of FB, the command stream and the environment's answers are
arbitrary arguments. -/
def State.powerOn (cfg : Params) (fb : Memory) (stream : List CommandWord)
    (env : List BusAnswer) : State where
  fb := fb
  dev := .uninit
  cfg := cfg
  stream := stream
  index := 0
  completions := []
  codesRead := 0
  trace := []
  env := env

/-- The machine right after reset (R31, R171). The spec leaves the contents of FB open: nothing is
listed here (DESIGN CHOICE, log entry 1). The OPEN parameters stand at the spec's defaults (PRESUMED,
log entry 2); no command is on the port and no answer is listed (log entries 3, 4). -/
def State.reset : State := State.powerOn defaultParams [] [] []

end Sys2Proof.Machine
end

