-- ==== Sys2Proof/Machine/Flags.lean ====
section
/-! DEFINITION. The block's status: it has no condition flag and no sticky error bit (R32); its status
is DEV, the derived initialized flag (R22) and the byte of each completion code (R68). -/

namespace Sys2Proof.Machine

/-- The 2-bit encoding of DEV (R22, R25). -/
def devBits : Dev → BitVec 2
  | .uninit => 0b00#2
  | .initialized => 0b01#2
  | .failed => 0b10#2

/-- The document's boolean "initialized" flag: `DEV = INITIALIZED` (R22). -/
def initializedFlag (d : Dev) : Bool := d == .initialized

/-- The 8-bit value of a completion code on the completion port (R68). -/
def completionByte : CompletionCode → Byte
  | .ok => 0x00#8
  | .warnNotInit => 0x01#8
  | .errProbe => 0x02#8
  | .errTransfer => 0x03#8
  | .errIllegal => 0x04#8

end Sys2Proof.Machine
end

