-- ==== Sys2Proof/Machine/Operands.lean ====
section
/-! DEFINITION. How an operand is taken from its field (R63, R113): coordinates and sizes, the colour,
the character code. -/

namespace Sys2Proof.Machine

/-- A coordinate or size operand: the unsigned value of its byte, no sign extension, no scaling (R63,
R190). -/
abbrev coord (b : Byte) : Nat := b.toNat

/-- The colour operand: zero clears, every other value sets (R63). -/
def colour (k : Byte) : Bool := k != 0#8

/-- The glyph a character code selects; a code outside the font selects the space glyph (R113). -/
def glyphIndex (ch : Byte) : Nat :=
  if Config.fontFirst ≤ ch.toNat ∧ ch.toNat ≤ Config.fontLast then ch.toNat - Config.fontFirst
  else 0

/-- Column byte `i` of glyph `g` in the flat font array (R110). A table shorter than R110 says (none
that meets `Params.wf`) reads as zero past its end (log entry 7). -/
def fontByte (p : Params) (g i : Nat) : Byte := p.font.getD (g * Config.glyphCols + i) 0#8

end Sys2Proof.Machine
end

