-- ==== Sys2Proof/Machine/Ops.lean ====
section
/-! DEFINITION. The named operations every command is built from: the framebuffer's byte and pixel
accesses (20_memory.md), `Complete` (R68), `BusWrite` (R130), and taking the next command word (R60). -/

namespace Sys2Proof.Machine

/-! ### Framebuffer bytes -/

/-- What an unlisted framebuffer byte reads as: 0x00 (DESIGN CHOICE, log entry 1). -/
def unlisted : Byte := 0#8

/-- Canonical from index `lo` on: indices strictly rising and inside the framebuffer, no entry equal to
`unlisted`. -/
def Memory.wfFrom (lo : Nat) : Memory → Bool
  | [] => true
  | (a, v) :: m =>
    decide (lo ≤ a) && decide (a < Config.fbBytes) && v != unlisted && Memory.wfFrom (a + 1) m

/-- The canonical form of framebuffer storage. -/
def Memory.wf (m : Memory) : Bool := Memory.wfFrom 0 m

/-- `MemRead(a, 1)` (R9). -/
def Memory.read : Memory → Nat → Byte
  | [], _ => unlisted
  | (b, v) :: m, a => if a = b then v else if a < b then unlisted else Memory.read m a

/-- An entry for index `a` put before `m`, left out where it would say what an unlisted index says. -/
def Memory.entry (a : Nat) (v : Byte) (m : Memory) : Memory :=
  if v = unlisted then m else (a, v) :: m

/-- `MemWrite(a, 1, v)` (R9). -/
def Memory.write : Memory → Nat → Byte → Memory
  | [], a, v => Memory.entry a v []
  | (b, u) :: m, a, v =>
    if a < b then Memory.entry a v ((b, u) :: m)
    else if a = b then Memory.entry a v m
    else (b, u) :: Memory.write m a v

/-- The clear-all of CLEAR: `MemWrite(i, 1, 0x00)` for i = 0 .. FB_BYTES - 1 (R80). -/
def Memory.clearAll (m : Memory) : Memory :=
  (List.range Config.fbBytes).foldl (fun m i => Memory.write m i 0#8) m

/-! ### Pixels -/

/-- In range, on-screen (R10): the pixel addresses storage. -/
def onScreen (x y : Nat) : Bool := decide (x < Config.width) && decide (y < Config.height)

/-- The byte index of a pixel (R41). -/
def byteIndex (x y : Nat) : Nat := x + (y / 8) * Config.width

/-- The bit of a pixel in its byte (R41). -/
def bitIndex (y : Nat) : Nat := y % 8

/-- The column of byte `i` (R42). -/
def columnOf (i : Nat) : Nat := i % Config.width

/-- The row of bit `b` of byte `i` (R42). -/
def rowOf (i b : Nat) : Nat := 8 * (i / Config.width) + b

/-- `v` with bit `b` set or cleared (R44). -/
def withBit (v : Byte) (b : Nat) (c : Bool) : Byte :=
  if c then v ||| (1#8 <<< b) else v &&& ~~~(1#8 <<< b)

/-- `Plot(x, y, c)`, the one primitive that changes a single pixel (R44); an off-screen pixel addresses
nothing (R43). -/
def plot (m : Memory) (x y : Nat) (c : Bool) : Memory :=
  if onScreen x y then
    Memory.write m (byteIndex x y)
      (withBit (Memory.read m (byteIndex x y)) (bitIndex y) c)
  else m

/-- `Pixel(x, y)`, the bit of an on-screen pixel; no command computes it (R45). -/
def pixel (m : Memory) (x y : Nat) : Bool := (Memory.read m (byteIndex x y)).getLsbD (bitIndex y)

/-- The points of a drawing command plotted one after the other in one colour (R83). -/
def plotAll (c : Bool) (points : List (Nat × Nat)) (m : Memory) : Memory :=
  points.foldl (fun m p => plot m p.1 p.2 c) m

/-! ### Ending a command -/

/-- `Complete(code)`: one code goes out and the command ends (R68, R155); the position in the command
list advances by exactly one, whatever the code (R27). Nothing is saved and nothing else changes: the
block has no trap (R155). -/
def complete (code : CompletionCode) (s : State) : State :=
  { s with completions := s.completions ++ [code], index := s.index + 1 }

/-- A drawing command: its points are plotted, DEV and the bus are left alone, and it completes with OK
(R83). -/
def draw (c : Bool) (points : List (Nat × Nat)) (s : State) : State :=
  complete .ok { s with fb := plotAll c points s.fb }

/-- An illegal or reserved word: no state change, no transaction, ERR_ILLEGAL (R67, R156). -/
def completeIllegal (s : State) : State := complete .errIllegal s

/-! ### The bus -/

/-- The environment's answer to the next transaction (R14, R130). -/
def nextAnswer (s : State) : BusAnswer := s.env.headD (Config.busAnswer s.trace.length)

/-- The environment's answer to the transaction `n` places after the next one. -/
def answerAt (s : State) (n : Nat) : BusAnswer :=
  (s.env.drop n).headD (Config.busAnswer (s.trace.length + n))

/-- `BusWrite(a, bytes)`: one transaction, issued and answered before anything else happens (R130,
R131). The block learns the answer and nothing more. -/
def busWrite (a : BusAddress) (bytes : List Byte) (s : State) : BusAnswer × State :=
  (nextAnswer s,
    { s with env := s.env.tail, trace := s.trace ++ [⟨a, bytes, nextAnswer s⟩] })

/-- Transactions to the device, one per payload, whose answers are not examined (R135). -/
def sendIgnoring : List (List Byte) → State → State
  | [], s => s
  | p :: ps, s => sendIgnoring ps (busWrite Config.devAddr p s).2

/-- Transactions to the device, one per payload, up to and including the first that is answered FAIL
(R137, R140). -/
def sendUntilFail : List (List Byte) → State → BusAnswer × State
  | [], s => (.ok, s)
  | p :: ps, s =>
    match busWrite Config.devAddr p s with
    | (.fail, t) => (.fail, t)
    | (.ok, t) => sendUntilFail ps t

/-! ### The command port -/

/-- The next command word, and the state with it taken from the port (R60); none where the stream is
exhausted (R17). -/
def fetch (s : State) : Option (CommandWord × State) :=
  match s.stream with
  | [] => none
  | w :: rest => some (w, { s with stream := rest })

/-- What a word whose opcode names no command does: it ends as `completeIllegal` says and the next word
is taken normally (R67). -/
def illegalCommand (s : State) : Host.Outcome State Fault Refusal := .next (completeIllegal s)

/-- No word on the command port: nothing happens until the host supplies one (DEDUCED from R11 and R17,
log entry 5). -/
def idle (s : State) : Host.Outcome State Fault Refusal := .next s

end Sys2Proof.Machine
end

