-- ==== Sys2Proof/Machine/Device.lean ====
section
/-! DEFINITION. The display_flush_sequencer (44_device_flush.md). The settling wait of INIT is timing
only and is left out (R183, log entry 9). -/

namespace Sys2Proof.Machine

/-- A command transaction's payload (R70). -/
def commandPayload (p : Params) (bytes : List Byte) : List Byte := p.ctrlCmd :: bytes

/-- The payload of chunk `k`: the framing byte and framebuffer bytes `lo` to `hi - 1` (R70, R137,
R138). -/
def chunkPayload (p : Params) (m : Memory) (k : Nat) : List Byte :=
  let lo := k * Config.chunk
  let hi := min (lo + Config.chunk) Config.fbBytes
  p.ctrlData :: (List.range' lo (hi - lo)).map (Memory.read m)

/-- The payloads of the configuration sequence, in order (R136). -/
def initPayloads (p : Params) : List (List Byte) := p.initSeq.map (commandPayload p)

/-- The payloads of a whole flush: the window, then the chunks (R137). -/
def flushPayloads (p : Params) (m : Memory) : List (List Byte) :=
  p.windowSeq.map (commandPayload p) ++ (List.range Config.nChunks).map (chunkPayload p m)

/-- INIT from UNINIT: the probe, an address-only write; then, if it was answered, the configuration
sequence, whose answers are not examined (R135). -/
def probeAndConfigure (s : State) : State :=
  match busWrite Config.devAddr [] s with
  | (.fail, t) => complete .errProbe { t with dev := .failed }
  | (.ok, t) => complete .ok { sendIgnoring (initPayloads s.cfg) t with dev := .initialized }

/-- INIT: it probes once; INITIALIZED and FAILED are terminal and are reported as found (R135, R141). -/
def initDevice (s : State) : State :=
  match s.dev with
  | .initialized => complete .ok s
  | .failed => complete .errProbe s
  | .uninit => probeAndConfigure s

/-- The code of a flush whose last answer is the given one (R137). -/
def flushCode : BusAnswer → CompletionCode
  | .ok => .ok
  | .fail => .errTransfer

/-- DISPLAY on an initialized device (R137). -/
def flush (s : State) : State :=
  complete (flushCode (sendUntilFail (flushPayloads s.cfg s.fb) s).1)
    (sendUntilFail (flushPayloads s.cfg s.fb) s).2

/-- DISPLAY: gated by the initialized flag (R137, R154). -/
def displayFrame (s : State) : State :=
  if initializedFlag s.dev then flush s else complete .warnNotInit s

/-- INIT (R135). -/
def execInit (s : State) : Host.Outcome State Fault Refusal := .next (initDevice s)

/-- DISPLAY (R137). -/
def execDisplay (s : State) : Host.Outcome State Fault Refusal := .next (displayFrame s)

end Sys2Proof.Machine
end

