-- ==== Sys2Proof/Machine/Framebuffer.lean ====
section
/-! DEFINITION. The framebuffer_controller's two commands (40_framebuffer_pixel.md). -/

namespace Sys2Proof.Machine

/-- CLEAR (R80). -/
def execClear (s : State) : Host.Outcome State Fault Refusal :=
  .next (complete .ok { s with fb := Memory.clearAll s.fb })

/-- SET_PIXEL (R81). -/
def execSetPixel (x y k : Byte) (s : State) : Host.Outcome State Fault Refusal :=
  .next (draw (colour k) [(coord x, coord y)] s)

end Sys2Proof.Machine
end

