-- ==== Sys2Proof/Machine/Glyph.lean ====
section
/-! DEFINITION. The glyph_blitter (43_glyph_text.md) and the reserved font hook (R66). -/

namespace Sys2Proof.Machine

/-- The set bits of one glyph column, top row first (R114). -/
def columnPoints (col : Byte) (x y : Nat) : List (Nat × Nat) :=
  ((List.range Config.glyphBits).filter fun j => col.getLsbD j).map fun j => (x, y + j)

/-- The points a DRAW_CHAR plots, column by column (R114). -/
def glyphPoints (p : Params) (x y : Nat) (ch : Byte) : List (Nat × Nat) :=
  (List.range Config.glyphCols).flatMap fun i =>
    columnPoints (fontByte p (glyphIndex ch) i) (x + i) y

/-- DRAW_CHAR (R114): set bits are plotted as set, clear bits plot nothing. -/
def execDrawChar (x y ch : Byte) (s : State) : Host.Outcome State Fault Refusal :=
  .next (draw true (glyphPoints s.cfg (coord x) (coord y) ch) s)

/-- The reserved opcode 0x07, treated exactly as an illegal opcode (R66, R67). -/
def execReservedSetFont (s : State) : Host.Outcome State Fault Refusal :=
  .next (completeIllegal s)

end Sys2Proof.Machine
end

