-- ==== Sys2Proof/Machine/Line.lean ====
section
/-! DEFINITION. The bresenham_line_engine (41_line.md). Every working value is a mathematical integer
(R90, R191). -/

namespace Sys2Proof.Machine

/-- The engine's working registers between two passes of the loop (R26, R90). -/
structure LineCursor where
  x : Int
  y : Int
  err : Int
deriving DecidableEq, Repr

/-- An absolute delta (R90). -/
def absDelta (a b : Nat) : Nat := ((b : Int) - (a : Int)).natAbs

/-- A unit step sign (R90): +1 towards a greater endpoint, else -1. -/
def stepSign (a b : Nat) : Int := if a < b then 1 else -1

/-- The cursor before the first pass: the first endpoint, `err = dx - dy` (R90; from general knowledge
in the spec, log entry 8). -/
def lineStart (x0 y0 x1 y1 : Nat) : LineCursor :=
  ⟨x0, y0, (absDelta x0 x1 : Int) - absDelta y0 y1⟩

/-- The x part of a pass, tested on `e2` (R90). -/
def stepX (x0 y0 x1 y1 : Nat) (e2 : Int) (c : LineCursor) : LineCursor :=
  if e2 > -(absDelta y0 y1 : Int) then
    { c with err := c.err - absDelta y0 y1, x := c.x + stepSign x0 x1 }
  else c

/-- The y part of a pass, tested on the same `e2` (R90). -/
def stepY (x0 y0 x1 y1 : Nat) (e2 : Int) (c : LineCursor) : LineCursor :=
  if e2 < (absDelta x0 x1 : Int) then
    { c with err := c.err + absDelta x0 x1, y := c.y + stepSign y0 y1 }
  else c

/-- One update of the loop body: both tests use the `e2` computed before either update (R90). -/
def lineStep (x0 y0 x1 y1 : Nat) (c : LineCursor) : LineCursor :=
  stepY x0 y0 x1 y1 (2 * c.err) (stepX x0 y0 x1 y1 (2 * c.err) c)

/-- The current point is the endpoint (R90). -/
def atEnd (x1 y1 : Nat) (c : LineCursor) : Bool := c.x == x1 && c.y == y1

/-- The passes of the loop, at most `n` of them, stopping after the endpoint (R90). -/
def lineWalk (x0 y0 x1 y1 : Nat) : Nat → LineCursor → List LineCursor
  | 0, _ => []
  | n + 1, c =>
    c :: if atEnd x1 y1 c then [] else lineWalk x0 y0 x1 y1 n (lineStep x0 y0 x1 y1 c)

/-- The number of passes, `max(dx, dy) + 1` (R91). -/
def linePasses (x0 y0 x1 y1 : Nat) : Nat := max (absDelta x0 x1) (absDelta y0 y1) + 1

/-- The engine's cursor at each `Plot` of a DRAW_LINE, in order. -/
def lineCursors (x0 y0 x1 y1 : Nat) : List LineCursor :=
  lineWalk x0 y0 x1 y1 (linePasses x0 y0 x1 y1) (lineStart x0 y0 x1 y1)

/-- The points a DRAW_LINE plots, in order. No coordinate is negative (R91). -/
def linePoints (x0 y0 x1 y1 : Nat) : List (Nat × Nat) :=
  (lineCursors x0 y0 x1 y1).map fun c => (c.x.toNat, c.y.toNat)

/-- DRAW_LINE (R90). -/
def execDrawLine (x0 y0 x1 y1 k : Byte) (s : State) : Host.Outcome State Fault Refusal :=
  .next (draw (colour k) (linePoints (coord x0) (coord y0) (coord x1) (coord y1)) s)

end Sys2Proof.Machine
end

