-- ==== Sys2Proof/Machine/Rect.lean ====
section
/-! DEFINITION. The rectangle_fill_unit (42_rect.md). Sums of operands are exact, never reduced modulo
256 (R103). -/

namespace Sys2Proof.Machine

/-- The points of `Rect(x, y, w, h)`, row by row (R101). -/
def rectPoints (x y w h : Nat) : List (Nat × Nat) :=
  (List.range h).flatMap fun j => (List.range w).map fun i => (x + i, y + j)

/-- Top and bottom row of a border, interleaved as R100 plots them. -/
def edgeRows (x y w h : Nat) : List (Nat × Nat) :=
  (List.range w).flatMap fun i => [(x + i, y), (x + i, y + h - 1)]

/-- Left and right column of a border, interleaved as R100 plots them. -/
def edgeColumns (x y w h : Nat) : List (Nat × Nat) :=
  (List.range h).flatMap fun j => [(x, y + j), (x + w - 1, y + j)]

/-- The points of a DRAW_RECT, corners twice; none for an empty rectangle (R100). -/
def borderPoints (x y w h : Nat) : List (Nat × Nat) :=
  if w ≠ 0 ∧ h ≠ 0 then edgeRows x y w h ++ edgeColumns x y w h else []

/-- DRAW_RECT (R100). -/
def execDrawRect (x y w h k : Byte) (s : State) : Host.Outcome State Fault Refusal :=
  .next (draw (colour k) (borderPoints (coord x) (coord y) (coord w) (coord h)) s)

/-- FILL_RECT (R101). -/
def execFillRect (x y w h k : Byte) (s : State) : Host.Outcome State Fault Refusal :=
  .next (draw (colour k) (rectPoints (coord x) (coord y) (coord w) (coord h)) s)

end Sys2Proof.Machine
end

