-- ==== Sys2Proof/Machine/Dispatch.lean ====
section
/-! DEFINITION. One arm per command: the meaning `exec` gives it. -/

namespace Sys2Proof.Machine

def exec (i : Instr) (s : State) : Host.Outcome State Fault Refusal :=
  match i with
  | .clear => Sys2Proof.Machine.execClear s
  | .setPixel x y k => Sys2Proof.Machine.execSetPixel x y k s
  | .drawLine x0 y0 x1 y1 k => Sys2Proof.Machine.execDrawLine x0 y0 x1 y1 k s
  | .drawRect x y w h k => Sys2Proof.Machine.execDrawRect x y w h k s
  | .fillRect x y w h k => Sys2Proof.Machine.execFillRect x y w h k s
  | .drawChar x y ch => Sys2Proof.Machine.execDrawChar x y ch s
  | .reservedSetFont => Sys2Proof.Machine.execReservedSetFont s
  | .init => Sys2Proof.Machine.execInit s
  | .display => Sys2Proof.Machine.execDisplay s

end Sys2Proof.Machine
end

