-- ==== Sys2Proof/Machine/Step.lean ====
section
/-! DEFINITION. One step is one command (R197): take the next word, decode it, run it to completion. -/

namespace Sys2Proof.Machine

/-- One step of the command processor (R11, R60, R73, R197). -/
def step (s : State) : Host.Outcome State Fault Refusal :=
  match fetch s with
  | none => idle s
  | some (w, t) =>
    match decode w with
    | .ok i => exec i t
    | .error _ => illegalCommand t

/-- The state with a row's word put on the command port ahead of every waiting word, so that the next
step takes it (log entry 4). The word's bits are numbered as in `decodeTableWord`. -/
def State.withFetchWord (s : State) (nbits w : Nat) : State :=
  { s with stream := BitVec.ofNat 48 (w % 2 ^ nbits) :: s.stream }

end Sys2Proof.Machine
end

