-- ==== Sys2Proof/Machine/Text.lean ====
section
/-! DEFINITION. The host-side pseudo-commands PRINT_STRING, PRINT_NUMBER and PRINT_FLOAT: each expands
to a list of DRAW_CHAR commands (R72, R120 to R124). They are no commands of the block and no step. -/

namespace Sys2Proof.Machine

/-- The expansion of a text from cursor `cur` on: it stops at the display width, before the character
whose start column reaches it (R120). -/
def printFrom (y : Byte) : Nat → List Byte → List Instr
  | _, [] => []
  | cur, ch :: rest =>
    if Config.width ≤ cur then []
    else .drawChar (BitVec.ofNat 8 cur) y ch :: printFrom y (cur + Config.charAdvance) rest

/-- PRINT_STRING x, y, s (R120). -/
def printString (x y : Byte) (text : List Byte) : List Instr := printFrom y x.toNat text

/-- The code of a decimal digit (R121). -/
def digitCode (d : Nat) : Byte := BitVec.ofNat 8 (48 + d)

/-- The decimal digits of `n` put before `acc`; `fuel` bounds their number. -/
def digitsFrom : Nat → Nat → List Byte → List Byte
  | 0, _, acc => acc
  | fuel + 1, n, acc =>
    if n < 10 then digitCode n :: acc else digitsFrom fuel (n / 10) (digitCode (n % 10) :: acc)

/-- `Digits(m)`: the base-10 digits, most significant first, no leading zero; "0" for 0 (R121). A
number has at most as many decimal as binary digits. -/
def digits (n : Nat) : List Byte := digitsFrom (Nat.log2 n + 1) n []

/-- `Dec(n)`: the decimal text of an integer (R121). -/
def dec : Int → List Byte
  | .ofNat m => digits m
  | .negSucc m => 45#8 :: digits (m + 1)

/-- PRINT_NUMBER x, y, n (R121). -/
def printNumber (x y : Byte) (n : Int) : List Instr := printString x y (dec n)

/-- PRINT_FLOAT x, y, v, d over the OPEN host-side function FormatFixed, on any type of values (R122,
R123). -/
def printFloat {Value : Type} (formatFixed : Value → Nat → List Byte) (x y : Byte) (v : Value)
    (d : Nat) : List Instr :=
  printString x y (formatFixed v d)

/-- A digit code (R121). -/
def isDigitCode (c : Byte) : Bool := decide (48 ≤ c.toNat) && decide (c.toNat ≤ 57)

/-- The shape R123 lets a model assume of `FormatFixed(v, d)` for finite v and d at least 1: an
optional '-', one or more digits, one '.', exactly d digits. -/
def fixedPointShape (d : Nat) (text : List Byte) : Bool :=
  let unsigned := if text.head? = some 45#8 then text.tail else text
  let whole := unsigned.takeWhile isDigitCode
  !whole.isEmpty &&
    match unsigned.drop whole.length with
    | [] => false
    | point :: frac => point == 46#8 && frac.length == d && frac.all isDigitCode

/-- The command words a list of commands is issued as (R72). -/
def wordsOf (is : List Instr) : List CommandWord := is.map encode

end Sys2Proof.Machine
end

