-- ==== Sys2Proof/Machine/Assembler.lean ====
section
/-! DEFINITION. The assembler syntax of R71 and R72, one line to the commands it stands for. It is a
notation of the spec for its examples, no part of the block; what R71 leaves open of it is log entry
11. -/

namespace Sys2Proof.Machine

/-- A token of an assembler line. -/
inductive Token where
  /-- A mnemonic or a number, not yet told apart. -/
  | word (cs : List Char)
  /-- A quoted character. -/
  | quoted (c : Char)
  /-- A text in double quotes. -/
  | text (cs : List Char)
  /-- The operand separator. -/
  | comma
deriving DecidableEq, Repr

/-- The word gathered so far, in reverse, put before the tokens that follow it. -/
def endWord (acc : List Char) (ts : List Token) : List Token :=
  if acc.isEmpty then ts else .word acc.reverse :: ts

/-- The tokens of a line; `inText` inside double quotes, `acc` the characters gathered, in reverse. A
`;` outside quotes starts a comment (R71). -/
def lex : Bool → List Char → List Char → Option (List Token)
  | false, acc, [] => some (endWord acc [])
  | true, _, [] => none
  | true, acc, c :: rest =>
    if c = '"' then (lex false [] rest).map (.text acc.reverse :: ·)
    else lex true (c :: acc) rest
  | false, acc, '\'' :: c :: '\'' :: rest =>
    (lex false [] rest).map fun ts => endWord acc (.quoted c :: ts)
  | false, acc, c :: rest =>
    if c = ';' then some (endWord acc [])
    else if c = '"' then (lex true [] rest).map (endWord acc ·)
    else if c = ',' then (lex false [] rest).map fun ts => endWord acc (.comma :: ts)
    else if c = ' ' ∨ c = '\t' then (lex false [] rest).map (endWord acc ·)
    else lex false (c :: acc) rest

/-- The value of a digit of the given base. -/
def digitValue (base : Nat) (c : Char) : Option Nat :=
  let n := c.toNat
  let v := if 48 ≤ n ∧ n ≤ 57 then n - 48
    else if 65 ≤ n ∧ n ≤ 70 then n - 55
    else if 97 ≤ n ∧ n ≤ 102 then n - 87
    else base
  if v < base then some v else none

/-- The number a list of digits writes after the value `acc`. -/
def numeralFrom (base : Nat) : Nat → List Char → Option Nat
  | acc, [] => some acc
  | acc, c :: cs =>
    match digitValue base c with
    | none => none
    | some v => numeralFrom base (acc * base + v) cs

/-- A decimal number or a `0x` hexadecimal number (R71). -/
def numeral : List Char → Option Nat
  | [] => none
  | '0' :: 'x' :: c :: cs => numeralFrom 16 0 (c :: cs)
  | c :: cs => numeralFrom 10 0 (c :: cs)

/-- A decimal integer with an optional minus sign, the operand of PRINT_NUMBER (R121). -/
def integer : List Char → Option Int
  | '-' :: c :: cs => (numeralFrom 10 0 (c :: cs)).map fun n => -(n : Int)
  | cs => (numeral cs).map fun n => (n : Int)

/-- A number that fits an 8-bit operand field (R63). -/
def byteOf (n : Nat) : Option Byte := if n < 256 then some (BitVec.ofNat 8 n) else none

/-- The ASCII code of a character (R71, from general knowledge in the spec). -/
def asciiCode (c : Char) : Option Byte :=
  if c.toNat < 128 then some (BitVec.ofNat 8 c.toNat) else none

/-- A numeric operand. -/
def numberOperand : Token → Option Byte
  | .word cs => (numeral cs).bind byteOf
  | .quoted _ => none
  | .text _ => none
  | .comma => none

/-- A character code operand: a number or a quoted character (R71). -/
def codeOperand : Token → Option Byte
  | .quoted c => asciiCode c
  | .word cs => numberOperand (.word cs)
  | .text _ => none
  | .comma => none

/-- The operands of a line, separated by commas (R71). -/
def operands : List Token → Option (List Token)
  | [] => some []
  | [.comma] => none
  | [t] => some [t]
  | t :: .comma :: u :: rest =>
    if t = .comma then none else (operands (u :: rest)).map (t :: ·)
  | _ :: _ => none

/-- A command with no operand (format Z). -/
def lineZ (i : Instr) (ops : List Token) : Option (List Instr) :=
  if ops.isEmpty then some [i] else none

/-- A command with five numeric operands (format Q). -/
def lineQ (mk : Byte → Byte → Byte → Byte → Byte → Instr) (ops : List Token) :
    Option (List Instr) :=
  match ops.mapM numberOperand with
  | some [a, b, c, d, k] => some [mk a b c d k]
  | _ => none

/-- SET_PIXEL x, y, color (format P). -/
def lineP (ops : List Token) : Option (List Instr) :=
  match ops.mapM numberOperand with
  | some [x, y, k] => some [.setPixel x y k]
  | _ => none

/-- DRAW_CHAR x, y, c (format G). -/
def lineG : List Token → Option (List Instr)
  | [tx, ty, tc] =>
    match numberOperand tx, numberOperand ty, codeOperand tc with
    | some x, some y, some ch => some [.drawChar x y ch]
    | _, _, _ => none
  | _ => none

/-- PRINT_STRING x, y, "text" (R72). -/
def linePrintString : List Token → Option (List Instr)
  | [tx, ty, .text cs] =>
    match numberOperand tx, numberOperand ty, cs.mapM asciiCode with
    | some x, some y, some t => some (printString x y t)
    | _, _, _ => none
  | _ => none

/-- PRINT_NUMBER x, y, n (R72). -/
def linePrintNumber : List Token → Option (List Instr)
  | [tx, ty, .word cs] =>
    match numberOperand tx, numberOperand ty, integer cs with
    | some x, some y, some n => some (printNumber x y n)
    | _, _, _ => none
  | _ => none

/-- PRINT_FLOAT x, y, v, d (R72), over the OPEN FormatFixed applied to the value as it is written. -/
def linePrintFloat (formatFixed : List Char → Nat → List Byte) : List Token → Option (List Instr)
  | [tx, ty, .word v, .word d] =>
    match numberOperand tx, numberOperand ty, numeral d with
    | some x, some y, some n => some (printFloat formatFixed x y v n)
    | _, _, _ => none
  | _ => none

/-- The mnemonics of R64 and R72 in capitals, and the document's names as synonyms (R71). -/
def named (upper camel : String) (cs : List Char) : Bool :=
  cs == upper.toList || cs == camel.toList

/-- The commands a mnemonic and its operands stand for; none where the line is no line of R71 or
R72. -/
def assembleOperation (formatFixed : List Char → Nat → List Byte) (m : List Char)
    (ops : List Token) : Option (List Instr) :=
  if named "CLEAR" "clear" m then lineZ .clear ops
  else if named "SET_PIXEL" "setPixel" m then lineP ops
  else if named "DRAW_LINE" "drawLine" m then lineQ .drawLine ops
  else if named "DRAW_RECT" "drawRect" m then lineQ .drawRect ops
  else if named "FILL_RECT" "fillRect" m then lineQ .fillRect ops
  else if named "DRAW_CHAR" "drawChar" m then lineG ops
  else if named "INIT" "init" m then lineZ .init ops
  else if named "DISPLAY" "display" m then lineZ .display ops
  else if named "PRINT_STRING" "printString" m then linePrintString ops
  else if named "PRINT_NUMBER" "printNumber" m then linePrintNumber ops
  else if named "PRINT_FLOAT" "printFloat" m then linePrintFloat formatFixed ops
  else none

/-- One assembler line: the commands it stands for, none of them for a blank or comment line, `none`
where it is no line of the syntax (R71). -/
def assembleLine (formatFixed : List Char → Nat → List Byte) (line : List Char) :
    Option (List Instr) :=
  match lex false [] line with
  | none => none
  | some [] => some []
  | some (.word m :: ts) => (operands ts).bind (assembleOperation formatFixed m)
  | some (.quoted _ :: _) => none
  | some (.text _ :: _) => none
  | some (.comma :: _) => none

end Sys2Proof.Machine
end

