-- ==== Sys2Proof/Machine/HostPort.lean ====
section
/-! DEFINITION. What the host can do to the block between two commands (R18), and the end of a run
(R17). None of these is a step of the block. -/

namespace Sys2Proof.Machine

/-- The host puts one command word behind the waiting ones (R18, R29). -/
def issue (w : CommandWord) (s : State) : State := { s with stream := s.stream ++ [w] }

/-- The host puts words on the command port in order (R29). -/
def issueAll (ws : List CommandWord) (s : State) : State := { s with stream := s.stream ++ ws }

/-- The host reads the oldest unread completion code; none when every code has been read (R18). -/
def readCode (s : State) : Option (Byte × State) :=
  match s.completions[s.codesRead]? with
  | none => none
  | some c => some (completionByte c, { s with codesRead := s.codesRead + 1 })

/-- Power off and on, between two commands: a launch state with the same parameters and any contents of
FB and any answers to come (R170, R171). -/
def powerCycle (fb : Memory) (env : List BusAnswer) (s : State) : State :=
  State.powerOn s.cfg fb [] env

/-- A run is over when the command stream is exhausted; a command in progress does not exist between
two steps (R17, R197). -/
def runOver (s : State) : Bool := s.stream.isEmpty

/-- The end state of a run (R17). -/
structure RunResult where
  fb : Memory
  dev : Dev
  completions : List CompletionCode
  trace : List BusRecord
deriving DecidableEq, Repr

/-- What R17 calls the end state, read off a state. -/
def runResult (s : State) : RunResult := ⟨s.fb, s.dev, s.completions, s.trace⟩

end Sys2Proof.Machine
end

