-- ==== Sys2Proof/Safety.lean ====
section
/-! DEFINITION. What counts as a sound state of the block, in the terms the statements use. -/

namespace Sys2Proof.Machine

/-- DEV tells what has happened on the bus (R22, R23, R135, R141): nothing yet; the one unanswered
probe; the answered probe first of all. -/
def lifecycleMatches (s : State) : Prop :=
  match s.dev with
  | .uninit => s.trace = []
  | .failed => s.trace = [⟨Config.devAddr, [], .fail⟩]
  | .initialized => s.trace.head? = some ⟨Config.devAddr, [], .ok⟩

/-- Every transaction went to the display device (R40, R130). -/
def onlyDevice (s : State) : Prop := ∀ r ∈ s.trace, r.address = Config.devAddr

/-- The framebuffer is in canonical form, every command taken has completed exactly once (R27, R68),
and DEV and the bus trace agree. -/
structure State.Inv (s : State) : Prop where
  canonical : Memory.wf s.fb = true
  oneCodeEach : s.completions.length = s.index
  lifecycle : lifecycleMatches s
  device : onlyDevice s

/-- A step that neither faults nor refuses (R15: no trap and no hang). -/
def stepsOn (s : State) : Prop := ∃ t, step s = .next t

end Sys2Proof.Machine
end

