-- ==== Sys2Proof/Certificates/Slice0/Obligations.lean ====
section
/-! DEFINITION. The statements for the provers. Each is one rule of the spec, or follows from rules it
names; none is about a program, and none rests on a value the model chose. -/

namespace Sys2Proof.Statements

open Sys2Proof.Machine

/-- The state after a command that ended with `code` and changed nothing else (R68, R27). -/
def ended (code : CompletionCode) (s : State) : State :=
  { s with completions := s.completions ++ [code], index := s.index + 1 }

/-- The bit of the framebuffer that R41 gives the pixel (x, y). -/
def bitAt (m : Memory) (x y : Nat) : Bool :=
  (Memory.read m (x + 128 * (y / 8))).getLsbD (y % 8)

/-- Bits [lo + 7 : lo] of a command word (R9, R61). -/
def field (w : CommandWord) (lo : Nat) : Byte := w.extractLsb' lo 8

/-- In state `s`, `i` completes with OK, gives every on-screen pixel of `P` the colour `c`, leaves
every other on-screen pixel, every other byte, and every other part of the state as it was. -/
def Draws (i : Instr) (s : State) (c : Bool) (P : Nat → Nat → Prop) : Prop :=
  ∃ m, exec i s = .next (ended .ok { s with fb := m }) ∧
    Memory.wf m = true ∧
    (∀ x y, x < 128 → y < 64 → P x y → bitAt m x y = c) ∧
    (∀ x y, x < 128 → y < 64 → ¬ P x y → bitAt m x y = bitAt s.fb x y) ∧
    (∀ a, (∀ x y, x < 128 → y < 64 → P x y → x + 128 * (y / 8) ≠ a) →
      Memory.read m a = Memory.read s.fb a)

/-- A transaction to the display device (R130). -/
def record (bytes : List Byte) (r : BusAnswer) : BusRecord := ⟨0x3C#7, bytes, r⟩

/-- The payloads of a whole flush (R137, R138): each window entry behind CTRL_CMD, then 64 chunks of 16
framebuffer bytes behind CTRL_DATA. -/
def flushOf (p : Params) (m : Memory) : List (List Byte) :=
  p.windowSeq.map (fun bytes => p.ctrlCmd :: bytes) ++
    (List.range 64).map fun k =>
      p.ctrlData :: (List.range 16).map fun j => Memory.read m (16 * k + j)

/-- The records of the configuration sequence sent from `s`, its first transaction being `n` places
after the next one (R135). -/
def configRecords (s : State) (n : Nat) : List BusRecord :=
  s.cfg.initSeq.mapIdx fun k bytes => record (s.cfg.ctrlCmd :: bytes) (answerAt s (n + k))

/-- The bits a command's format uses (R62): OP and its operand fields. -/
def usedMask : Instr → CommandWord
  | .clear => 0xFF0000000000#48
  | .setPixel _ _ _ => 0xFFFFFF0000FF#48
  | .drawLine _ _ _ _ _ => 0xFFFFFFFFFFFF#48
  | .drawRect _ _ _ _ _ => 0xFFFFFFFFFFFF#48
  | .fillRect _ _ _ _ _ => 0xFFFFFFFFFFFF#48
  | .drawChar _ _ _ => 0xFFFFFFFF0000#48
  | .reservedSetFont => 0xFF0000000000#48
  | .init => 0xFF0000000000#48
  | .display => 0xFF0000000000#48

/-- The opcodes of the eight commands (R64). -/
def commandOpcode (op : Byte) : Prop :=
  (0x01 ≤ op.toNat ∧ op.toNat ≤ 0x06) ∨ op.toNat = 0x10 ∨ op.toNat = 0x11

/-- Bit `j` of column `i` of the glyph that R113 selects for `ch`, read from the flat array of R110. -/
def glyphBit (p : Params) (ch : Byte) (i j : Nat) : Bool :=
  (p.font.getD ((if 32 ≤ ch.toNat ∧ ch.toNat ≤ 90 then ch.toNat - 32 else 0) * 5 + i) 0#8).getLsbD j

/-- Some pass of the line loop has a tie, `e2 = -dy` or `e2 = dx` (R93). The last pass computes no
`e2`. -/
def hasTie (x0 y0 x1 y1 : Nat) : Prop :=
  ∃ k c, (lineCursors x0 y0 x1 y1)[k]? = some c ∧ k + 1 < (lineCursors x0 y0 x1 y1).length ∧
    (2 * c.err = -|(y1 : Int) - y0| ∨ 2 * c.err = |(x1 : Int) - x0|)

/-- `k` steps of the machine from `s` answer the next state `t`. -/
def runsTo (k : Nat) (s t : State) : Prop := Host.Core.run Sys2Proof.core k s = .next t

end Sys2Proof.Statements

open Sys2Proof Sys2Proof.Machine Sys2Proof.Statements

/-! ### Reset and status -/

/-- R171. A launch state, for every value of the parameters, of FB, of the waiting words and of the
answers to come: DEV is UNINIT, FB and FONT hold the given contents, the completion list and the bus
trace are empty. Power off and on leads to one; `State.reset` is one. -/
def Obligations.LaunchStateAfterReset : Prop :=
  (∀ cfg fb ws env,
    (State.powerOn cfg fb ws env).dev = .uninit ∧ (State.powerOn cfg fb ws env).fb = fb ∧
    (State.powerOn cfg fb ws env).cfg = cfg ∧ (State.powerOn cfg fb ws env).completions = [] ∧
    (State.powerOn cfg fb ws env).trace = []) ∧
  (∀ fb env s, powerCycle fb env s = State.powerOn s.cfg fb [] env) ∧
  ∃ cfg fb ws env, State.reset = State.powerOn cfg fb ws env

/-- The invariant holds in every launch state whose FB is in canonical form. -/
def Obligations.LaunchStatesMeetInvariant : Prop :=
  ∀ cfg fb ws env, Memory.wf fb = true → (State.powerOn cfg fb ws env).Inv

/-- R22: the bits of DEV; 0b11 is no value of it; the initialized flag is `DEV = INITIALIZED`. -/
def Obligations.StatusBitEncodings : Prop :=
  devBits .uninit = 0b00#2 ∧ devBits .initialized = 0b01#2 ∧ devBits .failed = 0b10#2 ∧
  (∀ d, devBits d ≠ 0b11#2) ∧ (∀ d, initializedFlag d = true ↔ d = .initialized)

/-- R18: the host reads the oldest unread completion code, and nothing else changes. -/
def Obligations.HostReadsOldestUnreadCode : Prop :=
  ∀ s, (s.completions.length ≤ s.codesRead → readCode s = none) ∧
    ∀ c, s.completions[s.codesRead]? = some c →
      readCode s = some (completionByte c, { s with codesRead := s.codesRead + 1 })

/-! ### Encoding -/

/-- R64: words written out from the opcode map and the field positions decode to their commands. -/
def Obligations.SampleWordsDecode : Prop :=
  decode 0x010000000000#48 = .ok .clear ∧
  decode 0x02050A000001#48 = .ok (.setPixel 5#8 10#8 1#8) ∧
  decode 0x03783C874601#48 = .ok (.drawLine 120#8 60#8 135#8 70#8 1#8) ∧
  decode 0x040A0A030301#48 = .ok (.drawRect 10#8 10#8 3#8 3#8 1#8) ∧
  decode 0x0502262E0401#48 = .ok (.fillRect 2#8 38#8 46#8 4#8 1#8) ∧
  decode 0x062418350000#48 = .ok (.drawChar 36#8 24#8 53#8) ∧
  decode 0x07FFFFFFFFFF#48 = .ok .reservedSetFont ∧
  decode 0x10ABCDEF0123#48 = .ok .init ∧
  decode 0x110000000001#48 = .ok .display ∧
  decode 0x000000000000#48 = .error (.illegalOpcode 0x00#8) ∧
  decode 0xFF0102030405#48 = .error (.illegalOpcode 0xFF#8)

/-- R64 and R73: decoding is total and the opcode alone selects the command. -/
def Obligations.OpcodeAloneSelectsCommand : Prop :=
  ∀ w : CommandWord,
    (field w 40 = 0x01#8 → decode w = .ok .clear) ∧
    (field w 40 = 0x02#8 → decode w = .ok (.setPixel (field w 32) (field w 24) (field w 0))) ∧
    (field w 40 = 0x03#8 → decode w =
      .ok (.drawLine (field w 32) (field w 24) (field w 16) (field w 8) (field w 0))) ∧
    (field w 40 = 0x04#8 → decode w =
      .ok (.drawRect (field w 32) (field w 24) (field w 16) (field w 8) (field w 0))) ∧
    (field w 40 = 0x05#8 → decode w =
      .ok (.fillRect (field w 32) (field w 24) (field w 16) (field w 8) (field w 0))) ∧
    (field w 40 = 0x06#8 → decode w = .ok (.drawChar (field w 32) (field w 24) (field w 16))) ∧
    (field w 40 = 0x07#8 → decode w = .ok .reservedSetFont) ∧
    (field w 40 = 0x10#8 → decode w = .ok .init) ∧
    (field w 40 = 0x11#8 → decode w = .ok .display) ∧
    (¬ commandOpcode (field w 40) → field w 40 ≠ 0x07#8 →
      decode w = .error (.illegalOpcode (field w 40)))

/-- Decode and encode agree on every command, every operand at every value. -/
def Obligations.DecodeOfEncode : Prop := ∀ i : Instr, i.wf = true → decode (encode i) = .ok i

/-- R62, R65: a word that decodes to a command is the command's encoding with the fields its format
does not use at any value. -/
def Obligations.EncodeOfDecode : Prop :=
  ∀ (w : CommandWord) (i : Instr), decode w = .ok i → encode i = w &&& usedMask i

/-- R65: two words that agree on the opcode and the used fields do the same thing, whatever their
other fields hold. -/
def Obligations.UnusedFieldsIgnored : Prop :=
  ∀ (w w' : CommandWord) (i : Instr) (s : State) (rest : List CommandWord),
    decode w = .ok i → w &&& usedMask i = w' &&& usedMask i →
      step { s with stream := w :: rest } = step { s with stream := w' :: rest }

/-- R69: a serialised word is its six bytes, OP first, most significant first, and is read back from
them. -/
def Obligations.SerialisedOpcodeFirst : Prop :=
  ∀ w : CommandWord, wordOfBytes (wordBytes w) = some w ∧
    ∃ op a b c d k : Byte, wordBytes w = [op, a, b, c, d, k] ∧
      w.toNat = op.toNat * 2 ^ 40 + a.toNat * 2 ^ 32 + b.toNat * 2 ^ 24 + c.toNat * 2 ^ 16 +
        d.toNat * 2 ^ 8 + k.toNat

/-- R71, R72: lines of the assembler syntax, with the words the spec's table and vectors give them. -/
def Obligations.AssemblerSampleLines : Prop :=
  (∀ f, (assembleLine f "CLEAR".toList).map wordsOf = some [0x010000000000#48]) ∧
  (∀ f, (assembleLine f "SET_PIXEL 5, 10, 1 ; dot".toList).map wordsOf =
    some [0x02050A000001#48]) ∧
  (∀ f, (assembleLine f "drawLine 0x78,60,135,70,1".toList).map wordsOf =
    some [0x03783C874601#48]) ∧
  (∀ f, (assembleLine f "DRAW_CHAR 0, 0, 'A'".toList).map wordsOf = some [0x060000410000#48]) ∧
  (∀ f, (assembleLine f "PRINT_NUMBER 36, 24, 57".toList).map wordsOf =
    some [0x062418350000#48, 0x062A18370000#48]) ∧
  (∀ f, assembleLine f "SET_PIXEL 5, 10".toList = none)

/-! ### Storage -/

/-- R41, R42: the pixel to byte and bit mapping is a bijection between the on-screen pixels and the
bits of the 1024 bytes. -/
def Obligations.PixelMappingIsBijection : Prop :=
  (∀ x y, x < 128 → y < 64 →
    byteIndex x y = x + 128 * (y / 8) ∧ byteIndex x y < 1024 ∧ bitIndex y = y % 8 ∧
    bitIndex y < 8 ∧ columnOf (byteIndex x y) = x ∧ rowOf (byteIndex x y) (bitIndex y) = y) ∧
  (∀ i b, i < 1024 → b < 8 →
    columnOf i = i % 128 ∧ rowOf i b = 8 * (i / 128) + b ∧ columnOf i < 128 ∧ rowOf i b < 64 ∧
    byteIndex (columnOf i) (rowOf i b) = i ∧ bitIndex (rowOf i b) = b)

/-- R43, R44: `Plot` writes one bit of one byte when the pixel is on-screen, nothing when it is not. -/
def Obligations.PlotWritesOneBit : Prop :=
  ∀ (m : Memory) (x y : Nat) (c : Bool), Memory.wf m = true →
    ((128 ≤ x ∨ 64 ≤ y) → plot m x y c = m) ∧
    (x < 128 → y < 64 →
      (∀ b, b < 8 → (Memory.read (plot m x y c) (x + 128 * (y / 8))).getLsbD b =
        if b = y % 8 then c else (Memory.read m (x + 128 * (y / 8))).getLsbD b) ∧
      (∀ a, a ≠ x + 128 * (y / 8) → Memory.read (plot m x y c) a = Memory.read m a) ∧
      pixel (plot m x y c) x y = c ∧ Memory.wf (plot m x y c) = true)

/-- The laws of `Plot` under R45, as equality of storage: idempotent; same-colour plots commute; plots
of different pixels commute; the last of two plots of one pixel counts; setting and then clearing a
pixel that was clear restores the storage. -/
def Obligations.PlotLaws : Prop :=
  ∀ (m : Memory) (x y x' y' : Nat) (c d : Bool), Memory.wf m = true →
    plot (plot m x y c) x y c = plot m x y c ∧
    plot (plot m x y c) x' y' c = plot (plot m x' y' c) x y c ∧
    ((x, y) ≠ (x', y') → plot (plot m x y c) x' y' d = plot (plot m x' y' d) x y c) ∧
    plot (plot m x y c) x y d = plot m x y d ∧
    (pixel m x y = false → plot (plot m x y true) x y false = m)

/-! ### The framebuffer commands -/

/-- R80: CLEAR sets every byte to zero and completes with OK; nothing else changes. -/
def Obligations.ClearZeroesFramebuffer : Prop :=
  (∀ w : CommandWord, field w 40 = 0x01#8 → decode w = .ok .clear) ∧
  ∀ s : State, Memory.wf s.fb = true →
    ∃ m, exec .clear s = .next (ended .ok { s with fb := m }) ∧ Memory.wf m = true ∧
      (∀ a, a < 1024 → Memory.read m a = 0x00#8) ∧
      (∀ a, 1024 ≤ a → Memory.read m a = Memory.read s.fb a)

/-- R81: SET_PIXEL plots its one pixel in its colour, any non-zero K setting it, or nothing when the
pixel is out of range, and completes with OK; C and D are ignored. -/
def Obligations.SetPixelPlotsItsPixel : Prop :=
  (∀ w : CommandWord, field w 40 = 0x02#8 →
    decode w = .ok (.setPixel (field w 32) (field w 24) (field w 0))) ∧
  ∀ (s : State) (x y k : Byte), Memory.wf s.fb = true →
    Draws (.setPixel x y k) s (k != 0#8) (fun px py => px = x.toNat ∧ py = y.toNat) ∧
    (128 ≤ x.toNat ∨ 64 ≤ y.toNat → exec (.setPixel x y k) s = .next (ended .ok s))

/-! ### The line -/

/-- DRAW_LINE plots exactly the points of the loop's passes in its colour and completes with OK; no
point is negative, and nothing else changes. It rests on the PRESUMED update of the loop, log entry 8
(93_implementation_defined.md G3, decision D16). -/
def Obligations.DrawLinePlotsItsWalk : Prop :=
  (∀ w : CommandWord, field w 40 = 0x03#8 →
    decode w = .ok (.drawLine (field w 32) (field w 24) (field w 16) (field w 8) (field w 0))) ∧
  ∀ (s : State) (x0 y0 x1 y1 k : Byte), Memory.wf s.fb = true →
    Draws (.drawLine x0 y0 x1 y1 k) s (k != 0#8) (fun px py =>
      ∃ c ∈ lineCursors x0.toNat y0.toNat x1.toNat y1.toNat, c.x = px ∧ c.y = py)

/-- The passes of DRAW_LINE are those of the Bresenham loop of 41_line.md: the first at (x0, y0) with
`err = dx - dy`, each next one by the two tests on one `e2`, none after the endpoint, the last at
it. It rests on the PRESUMED update of the loop, log entry 8 (93_implementation_defined.md G3, decision
D16). -/
def Obligations.LineWalkIsBresenham : Prop :=
  ∀ x0 y0 x1 y1 : Nat,
    (lineCursors x0 y0 x1 y1).head? =
      some ⟨x0, y0, |(x1 : Int) - x0| - |(y1 : Int) - y0|⟩ ∧
    (∃ e, (lineCursors x0 y0 x1 y1).getLast? = some ⟨x1, y1, e⟩) ∧
    ∀ (k : Nat) (c c' : LineCursor), (lineCursors x0 y0 x1 y1)[k]? = some c →
      (lineCursors x0 y0 x1 y1)[k + 1]? = some c' →
      (c.x ≠ x1 ∨ c.y ≠ y1) ∧
      c'.x = c.x + (if 2 * c.err > -|(y1 : Int) - y0| then (if x0 < x1 then 1 else -1) else 0) ∧
      c'.y = c.y + (if 2 * c.err < |(x1 : Int) - x0| then (if y0 < y1 then 1 else -1) else 0) ∧
      c'.err = c.err - (if 2 * c.err > -|(y1 : Int) - y0| then |(y1 : Int) - y0| else 0) +
        (if 2 * c.err < |(x1 : Int) - x0| then |(x1 : Int) - x0| else 0)

/-- The arithmetic of the line (41_line.md after the command's rule): max(dx, dy) + 1 passes, no point
twice, the endpoints' box never left, the error term within its bounds when the endpoints differ. It
rests on the PRESUMED update of the loop, log entry 8 (93_implementation_defined.md G3, decision
D16). -/
def Obligations.LineStaysInBounds : Prop :=
  ∀ x0 y0 x1 y1 : Nat,
    (lineCursors x0 y0 x1 y1).length =
      max ((x1 : Int) - x0).natAbs ((y1 : Int) - y0).natAbs + 1 ∧
    (linePoints x0 y0 x1 y1).Nodup ∧
    ∀ c ∈ lineCursors x0 y0 x1 y1,
      (min x0 x1 : Int) ≤ c.x ∧ c.x ≤ max x0 x1 ∧ (min y0 y1 : Int) ≤ c.y ∧ c.y ≤ max y0 y1 ∧
      ((x0, y0) ≠ (x1, y1) →
        -3 * |(y1 : Int) - y0| < 2 * c.err ∧ 2 * c.err < 3 * |(x1 : Int) - x0|)

/-- R92: the testable properties of the line. -/
def Obligations.LineTestableProperties : Prop :=
  (∀ x y : Nat, linePoints x y x y = [(x, y)]) ∧
  linePoints 0 0 10 0 = (List.range 11).map (fun i => (i, 0)) ∧
  (∀ x0 y0 x1 y1 : Nat, (linePoints x0 y0 x1 y1).head? = some (x0, y0) ∧
    (linePoints x0 y0 x1 y1).getLast? = some (x1, y1))

/-- Horizontal, vertical and exact diagonal lines plot the same points from either end (41_line.md,
symmetry); the line from (0, 0) to (2, 1) does not. The line's update and its tie-break, which fix the
two point lists of (0, 0) and (2, 1), are PRESUMED: log entry 8 (93_implementation_defined.md G3, U3;
decision D16). -/
def Obligations.AxisAndDiagonalLinesSymmetric : Prop :=
  (∀ x0 y0 x1 y1 : Nat,
    (x0 = x1 ∨ y0 = y1 ∨ |(x1 : Int) - x0| = |(y1 : Int) - y0|) →
    ∀ p, p ∈ linePoints x0 y0 x1 y1 ↔ p ∈ linePoints x1 y1 x0 y0) ∧
  linePoints 0 0 2 1 = [(0, 0), (1, 0), (2, 1)] ∧
  linePoints 2 1 0 0 = [(2, 1), (1, 1), (0, 0)]

/-- A line plots the same points from either end exactly when no pass of it has a tie (41_line.md,
symmetry, which leaves the proof for all 8-bit coordinates open). It rests on the PRESUMED update and
tie-break of the loop, log entry 8 (93_implementation_defined.md G3, U3; decision D16). -/
def Obligations.LineSymmetricIffTieFree : Prop :=
  ∀ x0 y0 x1 y1 : Byte,
    (¬ hasTie x0.toNat y0.toNat x1.toNat y1.toNat) ↔
    ∀ p, p ∈ linePoints x0.toNat y0.toNat x1.toNat y1.toNat ↔
      p ∈ linePoints x1.toNat y1.toNat x0.toNat y0.toNat

/-! ### Rectangles -/

/-- R101: FILL_RECT plots every pixel of the half-open rectangle, sums of operands not reduced, and
completes with OK. -/
def Obligations.FillRectPlotsRectangle : Prop :=
  (∀ w : CommandWord, field w 40 = 0x05#8 →
    decode w = .ok (.fillRect (field w 32) (field w 24) (field w 16) (field w 8) (field w 0))) ∧
  ∀ (s : State) (x y w h k : Byte), Memory.wf s.fb = true →
    Draws (.fillRect x y w h k) s (k != 0#8) (fun px py =>
      x.toNat ≤ px ∧ px < x.toNat + w.toNat ∧ y.toNat ≤ py ∧ py < y.toNat + h.toNat)

/-- R100: DRAW_RECT plots the border of the half-open rectangle, none when it is empty, and completes
with OK. -/
def Obligations.DrawRectPlotsBorder : Prop :=
  (∀ w : CommandWord, field w 40 = 0x04#8 →
    decode w = .ok (.drawRect (field w 32) (field w 24) (field w 16) (field w 8) (field w 0))) ∧
  ∀ (s : State) (x y w h k : Byte), Memory.wf s.fb = true →
    Draws (.drawRect x y w h k) s (k != 0#8) (fun px py =>
      ∃ i j, i < w.toNat ∧ j < h.toNat ∧
        (i = 0 ∨ i + 1 = w.toNat ∨ j = 0 ∨ j + 1 = h.toNat) ∧
        px = x.toNat + i ∧ py = y.toNat + j)

/-- The pixel counts of R101 and R100: w * h points in a rectangle, the product of the clipped sides of
them on-screen; the border's points, all of them in the rectangle. -/
def Obligations.RectanglePixelCounts : Prop :=
  ∀ x y w h : Nat,
    (rectPoints x y w h).toFinset.card = w * h ∧
    ((rectPoints x y w h).toFinset.filter fun p => p.1 < 128 ∧ p.2 < 64).card =
      (min (x + w) 128 - x) * (min (y + h) 64 - y) ∧
    (borderPoints x y w h).toFinset.card =
      (if w = 0 ∨ h = 0 then 0 else if w = 1 then h else if h = 1 then w else 2 * w + 2 * h - 4) ∧
    ∀ p ∈ borderPoints x y w h, p ∈ rectPoints x y w h

/-! ### The character -/

/-- R114, R113: DRAW_CHAR plots the set bits of the selected glyph as set and completes with OK. -/
def Obligations.DrawCharPlotsGlyph : Prop :=
  (∀ w : CommandWord, field w 40 = 0x06#8 →
    decode w = .ok (.drawChar (field w 32) (field w 24) (field w 16))) ∧
  ∀ (s : State) (x y ch : Byte), Memory.wf s.fb = true →
    Draws (.drawChar x y ch) s true (fun px py =>
      ∃ i j, i < 5 ∧ j < 8 ∧ glyphBit s.cfg ch i j = true ∧
        px = x.toNat + i ∧ py = y.toNat + j)

/-- The properties of DRAW_CHAR with a legal font (43_glyph_text.md section 2): the space glyph plots
nothing, for every code that selects it; no pixel is cleared; nothing changes outside 5 columns by 7
rows; on a page boundary the glyph's columns are OR-ed into the page. -/
def Obligations.DrawCharProperties : Prop :=
  ∀ (s : State) (x y ch : Byte), Memory.wf s.fb = true → s.cfg.wf = true →
    ((ch.toNat ≤ 32 ∨ 90 < ch.toNat) → exec (.drawChar x y ch) s = .next (ended .ok s)) ∧
    ∃ m, exec (.drawChar x y ch) s = .next (ended .ok { s with fb := m }) ∧
      (∀ px py, px < 128 → py < 64 → bitAt s.fb px py = true → bitAt m px py = true) ∧
      (∀ px py, px < 128 → py < 64 →
        px < x.toNat ∨ x.toNat + 4 < px ∨ py < y.toNat ∨ y.toNat + 6 < py →
        bitAt m px py = bitAt s.fb px py) ∧
      (y.toNat % 8 = 0 → y.toNat < 64 → x.toNat + 4 < 128 → ∀ i, i < 5 →
        Memory.read m (x.toNat + i + 128 * (y.toNat / 8)) =
          Memory.read s.fb (x.toNat + i + 128 * (y.toNat / 8)) ||| fontByte s.cfg (glyphIndex ch) i)

/-- R66: the reserved font opcode changes no state, issues no transaction and completes with
ERR_ILLEGAL, whatever its other fields hold. -/
def Obligations.ReservedFontOpcodeIsIllegal : Prop :=
  (∀ w : CommandWord, field w 40 = 0x07#8 → decode w = .ok .reservedSetFont) ∧
  ∀ s : State, exec .reservedSetFont s = .next (ended .errIllegal s)

/-! ### The device commands -/

/-- R135: INIT probes only from UNINIT; a failed probe leaves FAILED; an answered one sends the
configuration sequence, whatever its answers, and leaves INITIALIZED; a second INIT reports what it
finds. With legal parameters the sequence has 13 transactions. -/
def Obligations.InitProbesOnce : Prop :=
  (∀ w : CommandWord, field w 40 = 0x10#8 → decode w = .ok .init) ∧
  ∀ s : State,
    (s.dev = .initialized → exec .init s = .next (ended .ok s)) ∧
    (s.dev = .failed → exec .init s = .next (ended .errProbe s)) ∧
    (s.dev = .uninit → answerAt s 0 = .fail → exec .init s = .next (ended .errProbe
      { s with dev := .failed, env := s.env.drop 1, trace := s.trace ++ [record [] .fail] })) ∧
    (s.dev = .uninit → answerAt s 0 = .ok → exec .init s = .next (ended .ok
      { s with dev := .initialized, env := s.env.drop (1 + s.cfg.initSeq.length),
               trace := s.trace ++ record [] .ok :: configRecords s 1 })) ∧
    (s.cfg.wf = true → (configRecords s 1).length = 13)

/-- R137, R140: DISPLAY sends nothing when the device is not initialized, and says so; else it sends the
window and the 64 chunks up to and including the first transaction that fails, and reports whether one
did. FB and DEV stay as they were. -/
def Obligations.DisplayFlushesWholeFramebuffer : Prop :=
  (∀ w : CommandWord, field w 40 = 0x11#8 → decode w = .ok .display) ∧
  ∀ s : State,
    (s.dev ≠ .initialized → exec .display s = .next (ended .warnNotInit s)) ∧
    (s.dev = .initialized → (∀ n < (flushOf s.cfg s.fb).length, answerAt s n = .ok) →
      exec .display s = .next (ended .ok
        { s with env := s.env.drop (flushOf s.cfg s.fb).length,
                 trace := s.trace ++ (flushOf s.cfg s.fb).map (record · .ok) })) ∧
    (s.dev = .initialized → ∀ n p, (flushOf s.cfg s.fb)[n]? = some p →
      (∀ k < n, answerAt s k = .ok) → answerAt s n = .fail →
      exec .display s = .next (ended .errTransfer
        { s with env := s.env.drop (n + 1),
                 trace := s.trace ++ ((flushOf s.cfg s.fb).take n).map (record · .ok) ++
                   [record p .fail] }))

/-- R138: a flush is the window entries and 64 full chunks of 17 payload bytes; behind the framing
bytes the chunks carry the framebuffer bytes 0 to 1023 in order. -/
def Obligations.FlushCarriesEveryByteInOrder : Prop :=
  ∀ (p : Params) (m : Memory),
    (flushPayloads p m).length = p.windowSeq.length + 64 ∧
    (flushPayloads p m).take p.windowSeq.length = p.windowSeq.map (p.ctrlCmd :: ·) ∧
    (∀ c ∈ (flushPayloads p m).drop p.windowSeq.length,
      c.length = 17 ∧ c.head? = some p.ctrlData) ∧
    ((flushPayloads p m).drop p.windowSeq.length).flatMap List.tail =
      (List.range 1024).map (Memory.read m)

/-- Idempotence of DISPLAY (44_device_flush.md, properties): of two flushes of the same FB with the same
parameters on initialized devices, the payloads of one are a prefix of the other's, and with the same
answers they are the same. -/
def Obligations.DisplayTwiceSendsTheSame : Prop :=
  ∀ s s' t t' : State, s.fb = s'.fb → s.cfg = s'.cfg → s.dev = .initialized →
    s'.dev = .initialized → exec .display s = .next t → exec .display s' = .next t' →
    ∃ ps ps' : List (List Byte),
      t.trace.map BusRecord.payload = s.trace.map BusRecord.payload ++ ps ∧
      t'.trace.map BusRecord.payload = s'.trace.map BusRecord.payload ++ ps' ∧
      (ps <+: ps' ∨ ps' <+: ps) ∧
      ((∀ n < (flushOf s.cfg s.fb).length, answerAt s n = answerAt s' n) → ps = ps')

/-- R130, R131: every transaction a step issues goes to 0x3C and carries the environment's answer to
exactly that transaction, in order, and as many answers are used up. -/
def Obligations.TransactionsAnsweredInOrder : Prop :=
  (∀ s n r, s.env[n]? = some r → answerAt s n = r) ∧
  ∀ s t : State, step s = .next t →
    ∃ ps : List (List Byte),
      t.trace = s.trace ++ ps.mapIdx (fun n p => record p (answerAt s n)) ∧
      t.env = s.env.drop ps.length

/-! ### The step -/

/-- R73, R197: a step takes the next word and runs the command it decodes to; with no word on the port
it does nothing. -/
def Obligations.StepRunsDecodedCommand : Prop :=
  (∀ (s : State) (w : CommandWord) (rest : List CommandWord) (i : Instr),
    s.stream = w :: rest → decode w = .ok i → step s = exec i { s with stream := rest }) ∧
  (∀ s : State, s.stream = [] → step s = .next s)

/-- R67: a word whose opcode names no command, the reserved one included, changes no state, issues no
transaction and completes with ERR_ILLEGAL; the word is taken and the next one stays next. -/
def Obligations.IllegalWordOnlyReports : Prop :=
  ∀ (s : State) (w : CommandWord) (rest : List CommandWord),
    s.stream = w :: rest → ¬ commandOpcode (field w 40) →
      step s = .next (ended .errIllegal { s with stream := rest })

/-- R68: every step of a waiting word answers a next state, with exactly one completion code, of those
the command may emit and under the condition the table gives, and of the value the table gives. -/
def Obligations.EveryCommandEndsWithOneCode : Prop :=
  (completionByte .ok = 0x00#8 ∧ completionByte .warnNotInit = 0x01#8 ∧
    completionByte .errProbe = 0x02#8 ∧ completionByte .errTransfer = 0x03#8 ∧
    completionByte .errIllegal = 0x04#8) ∧
  ∀ (s : State) (w : CommandWord) (rest : List CommandWord), s.stream = w :: rest →
    ∃ t c new, step s = .next t ∧ t.stream = rest ∧ t.completions = s.completions ++ [c] ∧
      t.index = s.index + 1 ∧ t.trace = s.trace ++ new ∧
      (0x01 ≤ (field w 40).toNat → (field w 40).toNat ≤ 0x06 → c = .ok) ∧
      (field w 40 = 0x10#8 → c = if t.dev = .failed then .errProbe else .ok) ∧
      (field w 40 = 0x11#8 → s.dev ≠ .initialized → c = .warnNotInit) ∧
      (field w 40 = 0x11#8 → s.dev = .initialized →
        ((∃ r ∈ new, r.answer = .fail) → c = .errTransfer) ∧
        ((∀ r ∈ new, r.answer = .ok) → c = .ok)) ∧
      (¬ commandOpcode (field w 40) → c = .errIllegal)

/-- R23: only INIT writes DEV; the only transitions are UNINIT to INITIALIZED and UNINIT to FAILED. -/
def Obligations.OnlyInitWritesDev : Prop :=
  ∀ s t : State, step s = .next t → t.dev ≠ s.dev →
    s.dev = .uninit ∧ (t.dev = .initialized ∨ t.dev = .failed) ∧
    ∃ w rest, s.stream = w :: rest ∧ field w 40 = 0x10#8

/-- R196, R21: only INIT and DISPLAY issue transactions, and they, like an illegal word, leave FB as it
was; no step changes the parameters or the codes the host has read. -/
def Obligations.OnlyDeviceCommandsUseBus : Prop :=
  ∀ (s t : State) (w : CommandWord) (rest : List CommandWord),
    s.stream = w :: rest → step s = .next t →
    (field w 40 ≠ 0x10#8 → field w 40 ≠ 0x11#8 → t.trace = s.trace ∧ t.env = s.env) ∧
    ((field w 40).toNat = 0 ∨ 0x06 < (field w 40).toNat → t.fb = s.fb) ∧
    t.cfg = s.cfg ∧ t.codesRead = s.codesRead

/-- The next FB of a drawing command is a function of the old FB, the font and the command alone
(45_common_laws.md section 6): what else two states hold makes no difference. -/
def Obligations.DrawingIgnoresTheRest : Prop :=
  ∀ (i : Instr) (s s' t t' : State), i ≠ .init → i ≠ .display →
    s.fb = s'.fb → s.cfg.font = s'.cfg.font → exec i s = .next t → exec i s' = .next t' →
    t.fb = t'.fb ∧ t.dev = s.dev ∧ t'.dev = s'.dev

/-- Every step keeps the invariant: canonical storage, one completion code per command taken, DEV
agreeing with the bus trace, every transaction to the display device. -/
def Obligations.EveryStepKeepsInvariant : Prop :=
  ∀ s t : State, s.Inv → step s = .next t → t.Inv

/-- The work of each command (70_reset_and_hazards.md section 4): CLEAR is its 1024 byte writes; each
drawing command is as many calls of `Plot` as the spec counts, one after the other (DRAW_CHAR with legal
parameters); INIT, with legal parameters, issues at most 14 transactions and DISPLAY at most
len(WINDOW_SEQ) + 64, behind those issued before; every other command issues none. The passes of a line are those of the PRESUMED loop, log
entry 8 (93_implementation_defined.md G3, decision D16). -/
def Obligations.WorkPerCommandBounded : Prop :=
  (∀ s : State, exec .clear s = .next (ended .ok
    { s with fb := (List.range 1024).foldl (fun m i => Memory.write m i 0x00#8) s.fb })) ∧
  (∀ (s : State) (x y k : Byte), exec (.setPixel x y k) s = .next (ended .ok
    { s with fb := plot s.fb x.toNat y.toNat (k != 0#8) })) ∧
  (∀ (s : State) (x0 y0 x1 y1 k : Byte),
    exec (.drawLine x0 y0 x1 y1 k) s = .next (ended .ok
      { s with fb := plotAll (k != 0#8) (linePoints x0.toNat y0.toNat x1.toNat y1.toNat) s.fb }) ∧
    (linePoints x0.toNat y0.toNat x1.toNat y1.toNat).length =
      max ((x1.toNat : Int) - x0.toNat).natAbs ((y1.toNat : Int) - y0.toNat).natAbs + 1 ∧
    (linePoints x0.toNat y0.toNat x1.toNat y1.toNat).length ≤ 256) ∧
  (∀ (s : State) (x y w h k : Byte),
    exec (.fillRect x y w h k) s = .next (ended .ok
      { s with fb := plotAll (k != 0#8) (rectPoints x.toNat y.toNat w.toNat h.toNat) s.fb }) ∧
    (rectPoints x.toNat y.toNat w.toNat h.toNat).length = w.toNat * h.toNat ∧
    w.toNat * h.toNat ≤ 65025) ∧
  (∀ (s : State) (x y w h k : Byte),
    exec (.drawRect x y w h k) s = .next (ended .ok
      { s with fb := plotAll (k != 0#8) (borderPoints x.toNat y.toNat w.toNat h.toNat) s.fb }) ∧
    (borderPoints x.toNat y.toNat w.toNat h.toNat).length =
      (if w = 0#8 ∨ h = 0#8 then 0 else 2 * (w.toNat + h.toNat)) ∧
    (borderPoints x.toNat y.toNat w.toNat h.toNat).length ≤ 1020) ∧
  (∀ (s : State) (x y ch : Byte), s.cfg.wf = true →
    exec (.drawChar x y ch) s = .next (ended .ok
      { s with fb := plotAll true (glyphPoints s.cfg x.toNat y.toNat ch) s.fb }) ∧
    (glyphPoints s.cfg x.toNat y.toNat ch).length ≤ 35) ∧
  (∀ s : State, s.cfg.wf = true →
    ∃ t new, exec .init s = .next t ∧ t.trace = s.trace ++ new ∧ new.length ≤ 14) ∧
  (∀ s : State, ∃ t new, exec .display s = .next t ∧ t.trace = s.trace ++ new ∧
    new.length ≤ s.cfg.windowSeq.length + 64) ∧
  (∀ (i : Instr) (s : State), i ≠ .init → i ≠ .display →
    ∃ t, exec i s = .next t ∧ t.trace = s.trace)

/-! ### Runs -/

/-- R17, R194: a run takes every waiting word in turn and is over; one completion code each, the
position advancing by one each. -/
def Obligations.RunTakesEveryWord : Prop :=
  ∀ s : State, ∃ t, runsTo s.stream.length s t ∧ runOver t = true ∧
    t.completions.length = s.completions.length + s.stream.length ∧
    t.index = s.index + s.stream.length

/-- R51: words behind the ones a run takes make no difference to it; they are still waiting after. -/
def Obligations.LaterWordsMakeNoDifference : Prop :=
  ∀ (s t : State) (more : List CommandWord), runsTo s.stream.length s t →
    runsTo s.stream.length { s with stream := s.stream ++ more } { t with stream := more }

/-- R151: once DEV is FAILED every later DISPLAY completes with WARN_NOT_INIT and every later INIT with
ERR_PROBE, nothing is sent, and DEV stays FAILED, however the run goes on; every other command does
what it would do on an initialized device. -/
def Obligations.ProbeFailureIsTerminal : Prop :=
  (∀ s : State, s.dev = .uninit → answerAt s 0 = .fail →
    ∃ t, exec .init s = .next t ∧ t.dev = .failed ∧ t.completions = s.completions ++ [.errProbe]) ∧
  (∀ (n : Nat) (s : State), s.dev = .failed →
    ∃ t, runsTo n s t ∧ t.dev = .failed ∧ t.trace = s.trace) ∧
  (∀ s : State, s.dev = .failed →
    exec .display s = .next (ended .warnNotInit s) ∧ exec .init s = .next (ended .errProbe s)) ∧
  (∀ (i : Instr) (s t : State), i ≠ .init → i ≠ .display →
    exec i { s with dev := .initialized } = .next t →
    exec i { s with dev := .failed } = .next { t with dev := .failed })

/-! ### Text -/

/-- R120: PRINT_STRING issues one DRAW_CHAR per character, 6 columns apart, and none from the display
width on. -/
def Obligations.PrintStringExpansion : Prop :=
  ∀ (x y : Byte) (text : List Byte),
    (printString x y text).length = min text.length ((133 - x.toNat) / 6) ∧
    ∀ k ch, k < (printString x y text).length → text[k]? = some ch →
      x.toNat + 6 * k < 128 ∧
      (printString x y text)[k]? = some (.drawChar (BitVec.ofNat 8 (x.toNat + 6 * k)) y ch)

/-- R72: each pseudo-command is its DRAW_CHAR commands: running them gives one OK each and nothing of
its own, and leaves DEV and the bus alone. -/
def Obligations.PseudoCommandsCompleteWithOk : Prop :=
  (∀ (x y : Byte) (n : Int), printNumber x y n = printString x y (dec n)) ∧
  (∀ (Value : Type) (f : Value → Nat → List Byte) (x y : Byte) (v : Value) (d : Nat),
    printFloat f x y v d = printString x y (f v d)) ∧
  ∀ (s : State) (x y : Byte) (text : List Byte),
    ∃ t, runsTo (printString x y text).length
        { s with stream := wordsOf (printString x y text) } t ∧
      t.stream = [] ∧ t.dev = s.dev ∧ t.trace = s.trace ∧ t.env = s.env ∧
      t.completions = s.completions ++ List.replicate (printString x y text).length .ok

/-- R121: the decimal text of an integer: digits only, the value they write, no leading zero, "0" for
0, and a minus sign before a negative one; PRINT_NUMBER is PRINT_STRING of it. -/
def Obligations.DecimalTextOfInteger : Prop :=
  (∀ n : Nat,
    (∀ b ∈ digits n, 48 ≤ b.toNat ∧ b.toNat ≤ 57) ∧
    (digits n).foldl (fun acc b => 10 * acc + (b.toNat - 48)) 0 = n ∧
    (0 < n → (digits n).head? ≠ some 48#8) ∧ digits n ≠ []) ∧
  digits 0 = [48#8] ∧
  (∀ n : Nat, dec n = digits n) ∧
  (∀ n : Nat, 0 < n → dec (-(n : Int)) = 45#8 :: digits n) ∧
  (∀ (x y : Byte) (n : Int), printNumber x y n = printString x y (dec n))
end

