-- ==== Sys2Proof/Laws/State.lean ====
section
/-! SUPPORT. One lemma per field for each operation that updates the state: later proofs never unfold a
record update. -/

namespace Sys2Proof.Machine

section Complete
variable (c : CompletionCode) (s : State)

@[simp] theorem complete_fb : (complete c s).fb = s.fb := rfl
@[simp] theorem complete_dev : (complete c s).dev = s.dev := rfl
@[simp] theorem complete_cfg : (complete c s).cfg = s.cfg := rfl
@[simp] theorem complete_stream : (complete c s).stream = s.stream := rfl
@[simp] theorem complete_index : (complete c s).index = s.index + 1 := rfl
@[simp] theorem complete_completions : (complete c s).completions = s.completions ++ [c] := rfl
@[simp] theorem complete_codesRead : (complete c s).codesRead = s.codesRead := rfl
@[simp] theorem complete_trace : (complete c s).trace = s.trace := rfl
@[simp] theorem complete_env : (complete c s).env = s.env := rfl

end Complete

section Draw
variable (c : Bool) (ps : List (Nat × Nat)) (s : State)

@[simp] theorem draw_fb : (draw c ps s).fb = plotAll c ps s.fb := rfl
@[simp] theorem draw_dev : (draw c ps s).dev = s.dev := rfl
@[simp] theorem draw_cfg : (draw c ps s).cfg = s.cfg := rfl
@[simp] theorem draw_stream : (draw c ps s).stream = s.stream := rfl
@[simp] theorem draw_index : (draw c ps s).index = s.index + 1 := rfl
@[simp] theorem draw_completions : (draw c ps s).completions = s.completions ++ [.ok] := rfl
@[simp] theorem draw_codesRead : (draw c ps s).codesRead = s.codesRead := rfl
@[simp] theorem draw_trace : (draw c ps s).trace = s.trace := rfl
@[simp] theorem draw_env : (draw c ps s).env = s.env := rfl

end Draw

section BusWrite
variable (a : BusAddress) (bytes : List Byte) (s : State)

@[simp] theorem busWrite_answer : (busWrite a bytes s).1 = nextAnswer s := rfl
@[simp] theorem busWrite_fb : (busWrite a bytes s).2.fb = s.fb := rfl
@[simp] theorem busWrite_dev : (busWrite a bytes s).2.dev = s.dev := rfl
@[simp] theorem busWrite_cfg : (busWrite a bytes s).2.cfg = s.cfg := rfl
@[simp] theorem busWrite_stream : (busWrite a bytes s).2.stream = s.stream := rfl
@[simp] theorem busWrite_index : (busWrite a bytes s).2.index = s.index := rfl
@[simp] theorem busWrite_completions : (busWrite a bytes s).2.completions = s.completions := rfl
@[simp] theorem busWrite_codesRead : (busWrite a bytes s).2.codesRead = s.codesRead := rfl
@[simp] theorem busWrite_trace :
    (busWrite a bytes s).2.trace = s.trace ++ [⟨a, bytes, nextAnswer s⟩] := rfl
@[simp] theorem busWrite_env : (busWrite a bytes s).2.env = s.env.tail := rfl

end BusWrite

section PowerOn
variable (cfg : Params) (fb : Memory) (ws : List CommandWord) (env : List BusAnswer)

@[simp] theorem powerOn_fb : (State.powerOn cfg fb ws env).fb = fb := rfl
@[simp] theorem powerOn_dev : (State.powerOn cfg fb ws env).dev = .uninit := rfl
@[simp] theorem powerOn_cfg : (State.powerOn cfg fb ws env).cfg = cfg := rfl
@[simp] theorem powerOn_stream : (State.powerOn cfg fb ws env).stream = ws := rfl
@[simp] theorem powerOn_index : (State.powerOn cfg fb ws env).index = 0 := rfl
@[simp] theorem powerOn_completions : (State.powerOn cfg fb ws env).completions = [] := rfl
@[simp] theorem powerOn_codesRead : (State.powerOn cfg fb ws env).codesRead = 0 := rfl
@[simp] theorem powerOn_trace : (State.powerOn cfg fb ws env).trace = [] := rfl
@[simp] theorem powerOn_env : (State.powerOn cfg fb ws env).env = env := rfl

end PowerOn

end Sys2Proof.Machine
end

