-- ==== Sys2Proof/Laws/Bus.lean ====
section
/-! SUPPORT. The laws of the bus operations: which answer each transaction gets, and everything a
sequence of transactions does. -/

namespace Sys2Proof.Machine

/-- The record of a transaction to the display device. -/
def deviceRecord (bytes : List Byte) (r : BusAnswer) : BusRecord := ⟨Config.devAddr, bytes, r⟩

theorem nextAnswer_eq (s : State) : nextAnswer s = answerAt s 0 := by
  simp [nextAnswer, answerAt]

/-- An answer the state lists is the one given. -/
theorem answerAt_listed {s : State} {n : Nat} {r : BusAnswer} (h : s.env[n]? = some r) :
    answerAt s n = r := by
  simp [answerAt, List.headD_eq_head?_getD, List.head?_drop, h]

/-- After one transaction the answers to come are the same, one place on. -/
theorem answerAt_busWrite (a : BusAddress) (bytes : List Byte) (s : State) (n : Nat) :
    answerAt (busWrite a bytes s).2 n = answerAt s (n + 1) := by
  simp [answerAt, List.drop_tail, Nat.add_right_comm, Nat.add_assoc]

/-- Everything a sequence of transactions with unexamined answers does. -/
theorem sendIgnoring_eq (ps : List (List Byte)) (s : State) :
    sendIgnoring ps s =
      { s with
        env := s.env.drop ps.length
        trace := s.trace ++ ps.mapIdx fun n p => deviceRecord p (answerAt s n) } := by
  induction ps generalizing s with
  | nil => simp [sendIgnoring]
  | cons p ps ih =>
    rw [sendIgnoring, ih]
    simp only [answerAt_busWrite, List.mapIdx_cons, busWrite_env, busWrite_trace,
      List.drop_tail, List.length_cons, List.append_assoc, List.singleton_append]
    simp [busWrite, deviceRecord, nextAnswer_eq]

/-- A sequence of transactions that are all answered OK. -/
theorem sendUntilFail_allOk {ps : List (List Byte)} {s : State}
    (h : ∀ n < ps.length, answerAt s n = .ok) :
    sendUntilFail ps s =
      (.ok, { s with
        env := s.env.drop ps.length
        trace := s.trace ++ ps.map fun p => deviceRecord p .ok }) := by
  induction ps generalizing s with
  | nil => simp [sendUntilFail]
  | cons p ps ih =>
    have h0 : nextAnswer s = .ok := by rw [nextAnswer_eq]; exact h 0 (by simp)
    have hw : busWrite Config.devAddr p s = (.ok, (busWrite Config.devAddr p s).2) := by
      rw [← h0]; rfl
    rw [sendUntilFail, hw]
    dsimp only
    rw [ih fun n hn => by rw [answerAt_busWrite]; exact h (n + 1) (by simpa using hn)]
    simp [busWrite, deviceRecord, h0]

/-- A sequence of transactions whose first FAIL answer comes to transaction `n`. -/
theorem sendUntilFail_fail {ps : List (List Byte)} {s : State} {n : Nat} {p : List Byte}
    (hp : ps[n]? = some p) (hok : ∀ k < n, answerAt s k = .ok) (hf : answerAt s n = .fail) :
    sendUntilFail ps s =
      (.fail, { s with
        env := s.env.drop (n + 1)
        trace := s.trace ++ (ps.take n).map (fun p => deviceRecord p .ok) ++
          [deviceRecord p .fail] }) := by
  induction ps generalizing s n with
  | nil => simp at hp
  | cons q ps ih =>
    cases n with
    | zero =>
      obtain rfl : q = p := by simpa using hp
      have h0 : nextAnswer s = .fail := by rw [nextAnswer_eq]; exact hf
      have hw : busWrite Config.devAddr q s = (.fail, (busWrite Config.devAddr q s).2) := by
        rw [← h0]; rfl
      rw [sendUntilFail, hw]
      simp [busWrite, deviceRecord, h0]
    | succ n =>
      have h0 : nextAnswer s = .ok := by rw [nextAnswer_eq]; exact hok 0 (by omega)
      have hw : busWrite Config.devAddr q s = (.ok, (busWrite Config.devAddr q s).2) := by
        rw [← h0]; rfl
      rw [sendUntilFail, hw]
      dsimp only
      rw [ih (by simpa using hp)
        (fun k hk => by rw [answerAt_busWrite]; exact hok (k + 1) (by omega))
        (by rw [answerAt_busWrite]; exact hf)]
      simp [busWrite, deviceRecord, h0]

/-- Either every transaction of a sequence is answered OK, or there is a first that is not. -/
theorem all_ok_or_first_fail (s : State) (n : Nat) :
    (∀ k < n, answerAt s k = .ok) ∨
      ∃ k < n, (∀ j < k, answerAt s j = .ok) ∧ answerAt s k = .fail := by
  induction n with
  | zero => exact .inl fun k hk => absurd hk (Nat.not_lt_zero k)
  | succ n ih =>
    rcases ih with h | ⟨k, hk, h⟩
    · cases hn : answerAt s n with
      | ok =>
        refine .inl fun k hk => ?_
        rcases Nat.lt_succ_iff_lt_or_eq.1 hk with hk | rfl
        · exact h k hk
        · exact hn
      | fail => exact .inr ⟨n, Nat.lt_succ_self n, h, hn⟩
    · exact .inr ⟨k, Nat.lt_succ_of_lt hk, h⟩

/-- Everything a flush sequence can do: some first payloads went out, each with the answer to its
place, all of them OK but possibly the last; the rest went out only if none failed. -/
theorem sendUntilFail_cases (ps : List (List Byte)) (s : State) :
    ∃ k ≤ ps.length,
      (sendUntilFail ps s).2 =
        { s with
          env := s.env.drop k
          trace := s.trace ++ (ps.take k).mapIdx fun n p => deviceRecord p (answerAt s n) } ∧
      ((sendUntilFail ps s).1 = .ok → k = ps.length ∧ ∀ n < k, answerAt s n = .ok) ∧
      ((sendUntilFail ps s).1 = .fail →
        ∃ n, k = n + 1 ∧ (∀ j < n, answerAt s j = .ok) ∧ answerAt s n = .fail) := by
  induction ps generalizing s with
  | nil => exact ⟨0, Nat.le_refl _, by simp [sendUntilFail], by simp, by simp [sendUntilFail]⟩
  | cons p ps ih =>
    cases h0 : nextAnswer s with
    | fail =>
      have hw : busWrite Config.devAddr p s = (.fail, (busWrite Config.devAddr p s).2) := by
        rw [← h0]; rfl
      refine ⟨1, by simp, ?_, ?_, ?_⟩
      · rw [sendUntilFail, hw]
        simp [busWrite, deviceRecord, nextAnswer_eq]
      · rw [sendUntilFail, hw]
        simp
      · intro _
        exact ⟨0, rfl, by simp, by rw [← nextAnswer_eq, h0]⟩
    | ok =>
      have hw : busWrite Config.devAddr p s = (.ok, (busWrite Config.devAddr p s).2) := by
        rw [← h0]; rfl
      have hs : sendUntilFail (p :: ps) s = sendUntilFail ps (busWrite Config.devAddr p s).2 := by
        rw [sendUntilFail, hw]
      obtain ⟨k, hk, heq, hok, hfail⟩ := ih (busWrite Config.devAddr p s).2
      rw [hs]
      refine ⟨k + 1, by simpa using hk, ?_, ?_, ?_⟩
      · rw [heq]
        simp only [answerAt_busWrite]
        simp [busWrite, deviceRecord, nextAnswer_eq]
      · intro h
        obtain ⟨hk', hall⟩ := hok h
        refine ⟨by simp [hk'], fun n hn => ?_⟩
        cases n with
        | zero => rw [← nextAnswer_eq, h0]
        | succ n => rw [← answerAt_busWrite Config.devAddr p]; exact hall n (by omega)
      · intro h
        obtain ⟨n, hn, hall, hf⟩ := hfail h
        refine ⟨n + 1, by omega, fun j hj => ?_, ?_⟩
        · cases j with
          | zero => rw [← nextAnswer_eq, h0]
          | succ j => rw [← answerAt_busWrite Config.devAddr p]; exact hall j (by omega)
        · rw [← answerAt_busWrite Config.devAddr p]; exact hf

end Sys2Proof.Machine
end

