-- ==== Sys2Proof/Laws/Decode.lean ====
section
/-! SUPPORT. The fields of a word built from six bytes, and a word as its six fields. -/

namespace Sys2Proof

/-- The value of a word built from six bytes. -/
theorem mkWord_toNat (op a b c d k : Byte) :
    (mkWord op a b c d k).toNat =
      ((((op.toNat * 256 + a.toNat) * 256 + b.toNat) * 256 + c.toNat) * 256 + d.toNat) * 256 +
        k.toNat := by
  have h : ∀ {n : Nat} (u : BitVec n) (v : Byte), (u ++ v).toNat = u.toNat * 256 + v.toNat := by
    intro n u v
    rw [BitVec.toNat_append, ← Nat.shiftLeft_add_eq_or_of_lt v.isLt, Nat.shiftLeft_eq]
  simp only [mkWord, h]

/-- A field of a word, from the word's value. -/
theorem field_eq {w : CommandWord} {lo : Nat} {v : Byte} (h : w.toNat / 2 ^ lo % 256 = v.toNat) :
    w.extractLsb' lo 8 = v := by
  apply BitVec.eq_of_toNat_eq
  rw [BitVec.extractLsb'_toNat, Nat.shiftRight_eq_div_pow]
  exact h

section Fields
variable (op a b c d k : Byte)

@[simp] theorem opField_mkWord : opField (mkWord op a b c d k) = op :=
  field_eq (by rw [mkWord_toNat]; omega)

@[simp] theorem aField_mkWord : aField (mkWord op a b c d k) = a :=
  field_eq (by rw [mkWord_toNat]; omega)

@[simp] theorem bField_mkWord : bField (mkWord op a b c d k) = b :=
  field_eq (by rw [mkWord_toNat]; omega)

@[simp] theorem cField_mkWord : cField (mkWord op a b c d k) = c :=
  field_eq (by rw [mkWord_toNat]; omega)

@[simp] theorem dField_mkWord : dField (mkWord op a b c d k) = d :=
  field_eq (by rw [mkWord_toNat]; omega)

@[simp] theorem kField_mkWord : kField (mkWord op a b c d k) = k :=
  field_eq (by rw [mkWord_toNat]; omega)

end Fields

/-- A word is its six fields. -/
theorem mkWord_fields (w : CommandWord) :
    mkWord (opField w) (aField w) (bField w) (cField w) (dField w) (kField w) = w := by
  apply BitVec.eq_of_toNat_eq
  rw [mkWord_toNat]
  simp only [opField, aField, bField, cField, dField, kField, BitVec.extractLsb'_toNat,
    Nat.shiftRight_eq_div_pow]
  have := w.isLt
  omega

/-- A field of a masked word is the masked field. -/
theorem field_and (w w' : CommandWord) (lo : Nat) :
    (w &&& w').extractLsb' lo 8 = w.extractLsb' lo 8 &&& w'.extractLsb' lo 8 := by
  ext j hj
  simp

/-- Masking a word built from six bytes masks each byte. -/
theorem mkWord_and (op a b c d k op' a' b' c' d' k' : Byte) :
    mkWord op a b c d k &&& mkWord op' a' b' c' d' k' =
      mkWord (op &&& op') (a &&& a') (b &&& b') (c &&& c') (d &&& d') (k &&& k') := by
  have hop := opField_mkWord op a b c d k
  have hop' := opField_mkWord op' a' b' c' d' k'
  have ha := aField_mkWord op a b c d k
  have ha' := aField_mkWord op' a' b' c' d' k'
  have hb := bField_mkWord op a b c d k
  have hb' := bField_mkWord op' a' b' c' d' k'
  have hc := cField_mkWord op a b c d k
  have hc' := cField_mkWord op' a' b' c' d' k'
  have hd := dField_mkWord op a b c d k
  have hd' := dField_mkWord op' a' b' c' d' k'
  have hk := kField_mkWord op a b c d k
  have hk' := kField_mkWord op' a' b' c' d' k'
  rw [← mkWord_fields (mkWord op a b c d k &&& mkWord op' a' b' c' d' k')]
  simp only [opField, aField, bField, cField, dField, kField] at *
  simp only [field_and, hop, hop', ha, ha', hb, hb', hc, hc', hd, hd', hk, hk']

/-- The decoder names a command exactly for the nine opcodes it knows, and then its opcode is the
word's. -/
theorem decode_opcode {w : CommandWord} {i : Instr} (h : decode w = .ok i) :
    i.opcode = opField w := by
  simp only [decode] at h
  split_ifs at h <;> cases h <;> simp_all [Instr.opcode]

end Sys2Proof
end

