-- ==== Sys2Proof/Laws/Memory.lean ====
section
/-! SUPPORT. The laws of framebuffer bytes: read after write, the canonical form kept, and equal
contents are equal storage. -/

namespace Sys2Proof.Machine

/-! ### The canonical form -/

theorem Memory.wfFrom_mono {lo lo' : Nat} (h : lo' ≤ lo) {m : Memory}
    (hm : Memory.wfFrom lo m = true) : Memory.wfFrom lo' m = true := by
  cases m with
  | nil => rfl
  | cons e m =>
    simp only [Memory.wfFrom, Bool.and_eq_true, decide_eq_true_eq] at hm ⊢
    exact ⟨⟨⟨h.trans hm.1.1.1, hm.1.1.2⟩, hm.1.2⟩, hm.2⟩

theorem Memory.wfFrom_cons {lo b : Nat} {u : Byte} {m : Memory} :
    Memory.wfFrom lo ((b, u) :: m) = true ↔
      lo ≤ b ∧ b < Config.fbBytes ∧ u ≠ unlisted ∧ Memory.wfFrom (b + 1) m = true := by
  simp [Memory.wfFrom, and_assoc]

@[simp] theorem Memory.wf_nil : Memory.wf [] = true := rfl

/-- Below its first possible index a canonical storage reads as unlisted. -/
theorem Memory.read_below {lo a : Nat} {m : Memory} (hm : Memory.wfFrom lo m = true)
    (h : a < lo) : Memory.read m a = unlisted := by
  cases m with
  | nil => rfl
  | cons e m =>
    obtain ⟨b, u⟩ := e
    have := (Memory.wfFrom_cons.1 hm).1
    rw [Memory.read, if_neg (by omega), if_pos (by omega)]

/-- Outside the framebuffer a canonical storage lists nothing. -/
theorem Memory.read_outside {lo a : Nat} {m : Memory} (hm : Memory.wfFrom lo m = true)
    (h : Config.fbBytes ≤ a) : Memory.read m a = unlisted := by
  induction m generalizing lo with
  | nil => rfl
  | cons e m ih =>
    obtain ⟨b, u⟩ := e
    obtain ⟨-, hb, -, hm⟩ := Memory.wfFrom_cons.1 hm
    have hab : b < a := lt_of_lt_of_le hb h
    rw [Memory.read, if_neg (by omega), if_neg (by omega), ih hm]

theorem Memory.wfFrom_entry {lo a : Nat} {v : Byte} {m : Memory} (hlo : lo ≤ a)
    (ha : a < Config.fbBytes) (hm : Memory.wfFrom (a + 1) m = true) :
    Memory.wfFrom lo (Memory.entry a v m) = true := by
  unfold Memory.entry
  split
  · exact Memory.wfFrom_mono (by omega) hm
  · rename_i hv
    exact Memory.wfFrom_cons.2 ⟨hlo, ha, hv, hm⟩

theorem Memory.wfFrom_write {lo a : Nat} {v : Byte} {m : Memory} (hlo : lo ≤ a)
    (ha : a < Config.fbBytes) (hm : Memory.wfFrom lo m = true) :
    Memory.wfFrom lo (Memory.write m a v) = true := by
  induction m generalizing lo with
  | nil => exact Memory.wfFrom_entry hlo ha rfl
  | cons e m ih =>
    obtain ⟨b, u⟩ := e
    obtain ⟨hb, hb', hu, hm⟩ := Memory.wfFrom_cons.1 hm
    unfold Memory.write
    split
    · rename_i h
      exact Memory.wfFrom_entry hlo ha (Memory.wfFrom_cons.2 ⟨h, hb', hu, hm⟩)
    · split
      · rename_i h h'
        subst h'
        exact Memory.wfFrom_entry hlo ha hm
      · exact Memory.wfFrom_cons.2 ⟨hb, hb', hu, ih (by omega) hm⟩

/-- A write inside the framebuffer keeps the canonical form. -/
theorem Memory.wf_write {a : Nat} {v : Byte} {m : Memory} (ha : a < Config.fbBytes)
    (hm : Memory.wf m = true) : Memory.wf (Memory.write m a v) = true :=
  Memory.wfFrom_write (Nat.zero_le a) ha hm

/-! ### Read after write -/

theorem Memory.read_entry {a b : Nat} {v : Byte} {m : Memory}
    (hm : Memory.wfFrom (a + 1) m = true) :
    Memory.read (Memory.entry a v m) b = if b = a then v else Memory.read m b := by
  unfold Memory.entry
  split
  · rename_i hv
    split
    · subst hv
      exact Memory.read_below hm (by omega)
    · rfl
  · rw [Memory.read]
    split
    · rfl
    · split
      · exact (Memory.read_below hm (by omega)).symm
      · rfl

theorem Memory.read_write_from {lo a b : Nat} {v : Byte} {m : Memory}
    (hm : Memory.wfFrom lo m = true) :
    Memory.read (Memory.write m a v) b = if b = a then v else Memory.read m b := by
  induction m generalizing lo with
  | nil => exact Memory.read_entry rfl
  | cons e m ih =>
    obtain ⟨c, u⟩ := e
    obtain ⟨hc, hc', hu, hm⟩ := Memory.wfFrom_cons.1 hm
    unfold Memory.write
    split
    · rename_i h
      exact Memory.read_entry (Memory.wfFrom_cons.2 ⟨h, hc', hu, hm⟩)
    · split
      · rename_i h h'
        subst h'
        rw [Memory.read_entry hm]
        split
        · rfl
        · rename_i hba
          rw [Memory.read, if_neg hba]
          split
          · exact Memory.read_below hm (by omega)
          · rfl
      · rename_i h h'
        rw [Memory.read, Memory.read, ih hm]
        by_cases hbc : b = c
        · simp [hbc, Ne.symm h']
        · by_cases hlt : b < c
          · simp [hbc, hlt, show b ≠ a by omega]
          · simp [hbc, hlt]

/-- What a write does, whole: the byte written reads back, every other byte is as it was. -/
theorem Memory.read_write {m : Memory} (hm : Memory.wf m = true) (a : Nat) (v : Byte) (b : Nat) :
    Memory.read (Memory.write m a v) b = if b = a then v else Memory.read m b :=
  Memory.read_write_from hm

/-! ### Equal contents are equal storage -/

theorem Memory.read_head {lo b : Nat} {u : Byte} {m : Memory}
    (_hm : Memory.wfFrom lo ((b, u) :: m) = true) : Memory.read ((b, u) :: m) b = u := by
  simp [Memory.read]

theorem Memory.read_tail {lo a b : Nat} {u : Byte} {m : Memory}
    (hm : Memory.wfFrom lo ((b, u) :: m) = true) (h : a ≠ b) :
    Memory.read ((b, u) :: m) a = Memory.read m a := by
  obtain ⟨-, -, -, hm⟩ := Memory.wfFrom_cons.1 hm
  rw [Memory.read, if_neg h]
  split
  · exact (Memory.read_below hm (by omega)).symm
  · rfl

theorem Memory.ext_from {lo : Nat} {m m' : Memory} (hm : Memory.wfFrom lo m = true)
    (hm' : Memory.wfFrom lo m' = true) (h : ∀ a, Memory.read m a = Memory.read m' a) : m = m' := by
  induction m generalizing lo m' with
  | nil =>
    cases m' with
    | nil => rfl
    | cons e m' =>
      obtain ⟨b, u⟩ := e
      have := h b
      rw [Memory.read_head hm'] at this
      exact absurd this.symm (Memory.wfFrom_cons.1 hm').2.2.1
  | cons e m ih =>
    obtain ⟨b, u⟩ := e
    have w := Memory.wfFrom_cons.1 hm
    cases m' with
    | nil =>
      have := h b
      rw [Memory.read_head hm] at this
      exact absurd this w.2.2.1
    | cons e' m' =>
      obtain ⟨b', u'⟩ := e'
      have w' := Memory.wfFrom_cons.1 hm'
      have hb : b = b' := by
        rcases lt_trichotomy b b' with hlt | heq | hgt
        · have := h b
          rw [Memory.read_head hm, Memory.read, if_neg (by omega), if_pos hlt] at this
          exact absurd this w.2.2.1
        · exact heq
        · have := h b'
          rw [Memory.read_head hm', Memory.read, if_neg (by omega), if_pos hgt] at this
          exact absurd this.symm w'.2.2.1
      subst hb
      have hu : u = u' := by
        have := h b
        rwa [Memory.read_head hm, Memory.read_head hm'] at this
      subst hu
      congr 1
      refine ih w.2.2.2 w'.2.2.2 fun a => ?_
      by_cases hab : a = b
      · rw [Memory.read_below w.2.2.2 (by omega), Memory.read_below w'.2.2.2 (by omega)]
      · rw [← Memory.read_tail hm hab, ← Memory.read_tail hm' hab, h]

/-- Canonical storages with the same contents are equal. -/
theorem Memory.ext {m m' : Memory} (hm : Memory.wf m = true) (hm' : Memory.wf m' = true)
    (h : ∀ a, Memory.read m a = Memory.read m' a) : m = m' :=
  Memory.ext_from hm hm' h

/-! ### The clear-all -/

theorem Memory.wf_clearRange (n k : Nat) (hk : k + n ≤ Config.fbBytes) {m : Memory}
    (hm : Memory.wf m = true) :
    Memory.wf ((List.range' k n).foldl (fun m i => Memory.write m i 0#8) m) = true := by
  induction n generalizing k m with
  | zero => exact hm
  | succ n ih =>
    rw [List.range'_succ, List.foldl_cons]
    exact ih (k + 1) (by omega) (Memory.wf_write (by omega) hm)

theorem Memory.read_clearRange (n k : Nat) (hk : k + n ≤ Config.fbBytes) {m : Memory}
    (hm : Memory.wf m = true) (a : Nat) :
    Memory.read ((List.range' k n).foldl (fun m i => Memory.write m i 0#8) m) a =
      if k ≤ a ∧ a < k + n then 0#8 else Memory.read m a := by
  induction n generalizing k m with
  | zero => simp [show ¬ (k ≤ a ∧ a < k) by omega]
  | succ n ih =>
    rw [List.range'_succ, List.foldl_cons, ih (k + 1) (by omega) (Memory.wf_write (by omega) hm),
      Memory.read_write hm]
    by_cases hak : a = k
    · simp [hak]
    · rw [if_neg hak]
      exact if_congr (by omega) rfl rfl

/-- The clear-all keeps the canonical form. -/
theorem Memory.wf_clearAll {m : Memory} (hm : Memory.wf m = true) :
    Memory.wf (Memory.clearAll m) = true := by
  rw [Memory.clearAll, List.range_eq_range']
  exact Memory.wf_clearRange _ _ (by simp) hm

/-- What the clear-all does, whole. -/
theorem Memory.read_clearAll {m : Memory} (hm : Memory.wf m = true) (a : Nat) :
    Memory.read (Memory.clearAll m) a = if a < Config.fbBytes then 0#8 else Memory.read m a := by
  rw [Memory.clearAll, List.range_eq_range', Memory.read_clearRange _ _ (by simp) hm]
  simp

end Sys2Proof.Machine
end

