-- ==== Sys2Proof/Laws/PerInstr.lean ====
section
/-! SUPPORT. Facts about each command as syntax. Family `OpcodeField`: the opcode field of a command's
encoding is its opcode. -/

namespace Sys2Proof.Laws.OpcodeField

/-- The encoding of `i` carries the opcode of `i` in its OP field (R61, R64). -/
def Statement (i : Instr) : Prop := opField (encode i) = i.opcode

theorem clear : Statement .clear := opField_mkWord ..
theorem setPixel (x y k : Byte) : Statement (.setPixel x y k) := opField_mkWord ..
theorem drawLine (x0 y0 x1 y1 k : Byte) : Statement (.drawLine x0 y0 x1 y1 k) := opField_mkWord ..
theorem drawRect (x y w h k : Byte) : Statement (.drawRect x y w h k) := opField_mkWord ..
theorem fillRect (x y w h k : Byte) : Statement (.fillRect x y w h k) := opField_mkWord ..
theorem drawChar (x y ch : Byte) : Statement (.drawChar x y ch) := opField_mkWord ..
theorem reservedSetFont : Statement .reservedSetFont := opField_mkWord ..
theorem init : Statement .init := opField_mkWord ..
theorem display : Statement .display := opField_mkWord ..

end Sys2Proof.Laws.OpcodeField
end

