-- ==== Sys2Proof/Laws/Pixel.lean ====
section
/-! SUPPORT. The laws of the pixel primitive: where a pixel lies, what one `plot` does, and what a list of
plots in one colour does. -/

namespace Sys2Proof.Machine

/-! ### Where a pixel lies -/

theorem onScreen_iff {x y : Nat} : onScreen x y = true ↔ x < 128 ∧ y < 64 := by
  simp [onScreen]

theorem byteIndex_lt {x y : Nat} (hx : x < 128) (hy : y < 64) :
    byteIndex x y < Config.fbBytes := by
  simp only [byteIndex, Config.width, Config.fbBytes]
  omega

theorem bitIndex_lt (y : Nat) : bitIndex y < 8 := Nat.mod_lt _ (by decide)

/-- Two on-screen pixels in one byte at one bit are one pixel. -/
theorem pixel_location_inj {x y x' y' : Nat} (hx : x < 128) (hx' : x' < 128)
    (hi : byteIndex x y = byteIndex x' y') (hb : bitIndex y = bitIndex y') :
    x = x' ∧ y = y' := by
  simp only [byteIndex, bitIndex, Config.width] at hi hb
  omega

/-! ### One bit of a byte -/

/-- What `withBit` does to each bit. -/
theorem withBit_bit (v : Byte) (b : Nat) (c : Bool) (hb : b < 8) (j : Nat) (hj : j < 8) :
    (withBit v b c).getLsbD j = if j = b then c else v.getLsbD j := by
  have key : ∀ (v : Byte) (b j : Fin 8) (c : Bool),
      (withBit v b.val c).getLsbD j.val = if j = b then c else v.getLsbD j.val := by
    intro v b j c
    cases c <;> fin_cases b <;> fin_cases j <;> simp [withBit]
  simpa [Fin.ext_iff] using key v ⟨b, hb⟩ ⟨j, hj⟩ c

/-- A byte is its eight bits. -/
theorem byte_ext {u v : Byte} (h : ∀ j, j < 8 → u.getLsbD j = v.getLsbD j) : u = v :=
  BitVec.eq_of_getLsbD_eq h

/-! ### One plot -/

theorem plot_offScreen {m : Memory} {x y : Nat} (c : Bool) (h : ¬ (x < 128 ∧ y < 64)) :
    plot m x y c = m := by
  rw [plot, if_neg (by rwa [onScreen_iff])]

theorem plot_onScreen {m : Memory} {x y : Nat} (c : Bool) (hx : x < 128) (hy : y < 64) :
    plot m x y c = Memory.write m (byteIndex x y)
      (withBit (Memory.read m (byteIndex x y)) (bitIndex y) c) := by
  rw [plot, if_pos (onScreen_iff.2 ⟨hx, hy⟩)]

/-- A plot keeps the canonical form. -/
theorem wf_plot {m : Memory} (hm : Memory.wf m = true) (x y : Nat) (c : Bool) :
    Memory.wf (plot m x y c) = true := by
  by_cases h : x < 128 ∧ y < 64
  · rw [plot_onScreen c h.1 h.2]
    exact Memory.wf_write (byteIndex_lt h.1 h.2) hm
  · rwa [plot_offScreen c h]

/-- What a plot does to each byte. -/
theorem read_plot {m : Memory} (hm : Memory.wf m = true) {x y : Nat} (c : Bool) (hx : x < 128)
    (hy : y < 64) (a : Nat) :
    Memory.read (plot m x y c) a =
      if a = byteIndex x y then withBit (Memory.read m a) (bitIndex y) c else Memory.read m a := by
  rw [plot_onScreen c hx hy, Memory.read_write hm]
  split
  · rename_i h
    rw [h]
  · rfl

/-- What a plot does to each bit of each byte, whole. -/
theorem bit_plot {m : Memory} (hm : Memory.wf m = true) (x y : Nat) (c : Bool) (a b : Nat)
    (hb : b < 8) :
    (Memory.read (plot m x y c) a).getLsbD b =
      if (x < 128 ∧ y < 64) ∧ a = byteIndex x y ∧ b = bitIndex y then c
      else (Memory.read m a).getLsbD b := by
  by_cases h : x < 128 ∧ y < 64
  · rw [read_plot hm c h.1 h.2]
    by_cases ha : a = byteIndex x y
    · rw [if_pos ha, withBit_bit _ _ _ (bitIndex_lt y) _ hb]
      simp [h, ha]
    · simp [ha]
  · rw [plot_offScreen c h]
    simp [h]

/-- What a plot does to each on-screen pixel, whole. -/
theorem pixel_plot {m : Memory} (hm : Memory.wf m = true) (x y : Nat) (c : Bool) {px py : Nat}
    (hx : px < 128) (hy : py < 64) :
    pixel (plot m x y c) px py = if px = x ∧ py = y then c else pixel m px py := by
  unfold pixel
  rw [bit_plot hm x y c _ _ (bitIndex_lt py)]
  refine if_congr ⟨?_, ?_⟩ rfl rfl
  · rintro ⟨⟨hx', -⟩, hi, hb⟩
    exact pixel_location_inj hx hx' hi hb
  · rintro ⟨rfl, rfl⟩
    exact ⟨⟨hx, hy⟩, rfl, rfl⟩

/-- A plot leaves every byte alone but the plotted pixel's. -/
theorem read_plot_other {m : Memory} (hm : Memory.wf m = true) (x y : Nat) (c : Bool) {a : Nat}
    (h : x < 128 → y < 64 → byteIndex x y ≠ a) :
    Memory.read (plot m x y c) a = Memory.read m a := by
  by_cases hs : x < 128 ∧ y < 64
  · rw [read_plot hm c hs.1 hs.2, if_neg (Ne.symm (h hs.1 hs.2))]
  · rw [plot_offScreen c hs]

/-! ### A list of plots -/

@[simp] theorem plotAll_nil (c : Bool) (m : Memory) : plotAll c [] m = m := rfl

@[simp] theorem plotAll_cons (c : Bool) (p : Nat × Nat) (ps : List (Nat × Nat)) (m : Memory) :
    plotAll c (p :: ps) m = plotAll c ps (plot m p.1 p.2 c) := rfl

theorem plotAll_append (c : Bool) (ps qs : List (Nat × Nat)) (m : Memory) :
    plotAll c (ps ++ qs) m = plotAll c qs (plotAll c ps m) := List.foldl_append ..

/-- A list of plots keeps the canonical form. -/
theorem wf_plotAll (c : Bool) (ps : List (Nat × Nat)) {m : Memory} (hm : Memory.wf m = true) :
    Memory.wf (plotAll c ps m) = true := by
  induction ps generalizing m with
  | nil => exact hm
  | cons p ps ih => exact ih (wf_plot hm p.1 p.2 c)

/-- What a list of plots does to each on-screen pixel, whole. -/
theorem pixel_plotAll (c : Bool) (ps : List (Nat × Nat)) {m : Memory} (hm : Memory.wf m = true)
    {x y : Nat} (hx : x < 128) (hy : y < 64) :
    pixel (plotAll c ps m) x y = if (x, y) ∈ ps then c else pixel m x y := by
  induction ps generalizing m with
  | nil => simp
  | cons p ps ih =>
    rw [plotAll_cons, ih (wf_plot hm p.1 p.2 c), pixel_plot hm p.1 p.2 c hx hy]
    by_cases h : (x, y) ∈ ps
    · simp [h]
    · simp [h, Prod.ext_iff]

/-- A list of plots leaves every byte alone that holds none of its on-screen pixels. -/
theorem read_plotAll_other (c : Bool) (ps : List (Nat × Nat)) {m : Memory}
    (hm : Memory.wf m = true) {a : Nat}
    (h : ∀ p ∈ ps, p.1 < 128 → p.2 < 64 → byteIndex p.1 p.2 ≠ a) :
    Memory.read (plotAll c ps m) a = Memory.read m a := by
  induction ps generalizing m with
  | nil => rfl
  | cons p ps ih =>
    rw [plotAll_cons, ih (wf_plot hm p.1 p.2 c) fun q hq => h q (List.mem_cons_of_mem _ hq),
      read_plot_other hm p.1 p.2 c (h p (List.mem_cons_self ..))]

/-- Storages in canonical form that agree on every on-screen pixel are equal. -/
theorem memory_ext_pixel {m m' : Memory} (hm : Memory.wf m = true) (hm' : Memory.wf m' = true)
    (h : ∀ x y, x < 128 → y < 64 → pixel m x y = pixel m' x y) : m = m' := by
  refine Memory.ext hm hm' fun a => ?_
  by_cases ha : a < 1024
  · refine byte_ext fun b hb => ?_
    have := h (a % 128) (8 * (a / 128) + b) (Nat.mod_lt _ (by decide)) (by omega)
    simp only [pixel, byteIndex, bitIndex, Config.width] at this
    rwa [show a % 128 + (8 * (a / 128) + b) / 8 * 128 = a by omega,
      show (8 * (a / 128) + b) % 8 = b by omega] at this
  · have ha : Config.fbBytes ≤ a := Nat.le_of_not_lt ha
    rw [Memory.read_outside hm ha, Memory.read_outside hm' ha]

end Sys2Proof.Machine
end

