-- ==== Sys2Proof/Laws/Step.lean ====
section
/-! SUPPORT. What a command and a step can do, said once: one inversion lemma for `exec` and one for
`step`. -/

namespace Sys2Proof.Machine

/-- The ways a command can end: it drew into storage that stays canonical; it was illegal; it was INIT;
it was DISPLAY. -/
inductive Ran (i : Instr) (s : State) : State → Prop where
  /-- A drawing command or CLEAR. -/
  | drew (m : Memory) (hi : i ≠ .init ∧ i ≠ .display ∧ i ≠ .reservedSetFont)
      (hm : Memory.wf s.fb = true → Memory.wf m = true) :
      Ran i s (complete .ok { s with fb := m })
  /-- The reserved opcode. -/
  | illegal (hi : i = .reservedSetFont) : Ran i s (completeIllegal s)
  /-- INIT. -/
  | init (hi : i = .init) : Ran i s (initDevice s)
  /-- DISPLAY. -/
  | display (hi : i = .display) : Ran i s (displayFrame s)

/-- Every command answers a next state, in one of the four ways. -/
theorem exec_total (i : Instr) (s : State) : ∃ t, exec i s = .next t ∧ Ran i s t := by
  have drawn (c : Bool) (ps : List (Nat × Nat)) (hi) : Ran i s (draw c ps s) :=
    .drew _ hi (wf_plotAll c ps)
  cases i with
  | clear => exact ⟨_, rfl, .drew _ (by simp) Memory.wf_clearAll⟩
  | setPixel x y k => exact ⟨_, rfl, drawn _ _ (by simp)⟩
  | drawLine x0 y0 x1 y1 k => exact ⟨_, rfl, drawn _ _ (by simp)⟩
  | drawRect x y w h k => exact ⟨_, rfl, drawn _ _ (by simp)⟩
  | fillRect x y w h k => exact ⟨_, rfl, drawn _ _ (by simp)⟩
  | drawChar x y ch => exact ⟨_, rfl, drawn _ _ (by simp)⟩
  | reservedSetFont => exact ⟨_, rfl, .illegal rfl⟩
  | init => exact ⟨_, rfl, .init rfl⟩
  | display => exact ⟨_, rfl, .display rfl⟩

/-- If a command answers a next state, it is one of the four ways. -/
theorem exec_cases {i : Instr} {s t : State} (h : exec i s = .next t) : Ran i s t := by
  obtain ⟨t', h', hr⟩ := exec_total i s
  rw [h] at h'
  cases h'
  exact hr

/-- Everything INIT can do. -/
theorem initDevice_cases (s : State) :
    (s.dev = .initialized ∧ initDevice s = complete .ok s) ∨
    (s.dev = .failed ∧ initDevice s = complete .errProbe s) ∨
    (s.dev = .uninit ∧ answerAt s 0 = .fail ∧
      initDevice s = complete .errProbe
        { s with dev := .failed, env := s.env.drop 1,
                 trace := s.trace ++ [deviceRecord [] .fail] }) ∨
    (s.dev = .uninit ∧ answerAt s 0 = .ok ∧
      initDevice s = complete .ok
        { s with dev := .initialized, env := s.env.drop (1 + (initPayloads s.cfg).length),
                 trace := s.trace ++ deviceRecord [] .ok ::
                   (initPayloads s.cfg).mapIdx fun n p => deviceRecord p (answerAt s (1 + n)) }) := by
  cases hd : s.dev with
  | initialized => exact .inl ⟨rfl, by simp [initDevice, hd]⟩
  | failed => exact .inr (.inl ⟨rfl, by simp [initDevice, hd]⟩)
  | uninit =>
    have hi : initDevice s = probeAndConfigure s := by simp [initDevice, hd]
    rw [hi, ← nextAnswer_eq]
    cases h0 : nextAnswer s with
    | fail =>
      have hw : busWrite Config.devAddr [] s = (.fail, (busWrite Config.devAddr [] s).2) := by
        rw [← h0]; rfl
      refine .inr (.inr (.inl ⟨rfl, rfl, ?_⟩))
      rw [probeAndConfigure, hw]
      simp [busWrite, deviceRecord, h0]
    | ok =>
      have hw : busWrite Config.devAddr [] s = (.ok, (busWrite Config.devAddr [] s).2) := by
        rw [← h0]; rfl
      refine .inr (.inr (.inr ⟨rfl, rfl, ?_⟩))
      rw [probeAndConfigure, hw]
      dsimp only
      rw [sendIgnoring_eq]
      simp only [answerAt_busWrite]
      simp [busWrite, deviceRecord, h0, Nat.add_comm]

/-- Everything DISPLAY can do. -/
theorem displayFrame_cases (s : State) :
    (s.dev ≠ .initialized ∧ displayFrame s = complete .warnNotInit s) ∨
    (s.dev = .initialized ∧ displayFrame s = flush s) := by
  cases hd : s.dev <;> simp [displayFrame, initializedFlag, hd]

/-- Everything a step can do: nothing, with no word waiting; else the word is taken, and the command it
decodes to runs or it is reported as illegal. -/
inductive Stepped (s : State) : State → Prop where
  /-- The port is empty. -/
  | idle (h : s.stream = []) : Stepped s s
  /-- A command ran. -/
  | ran (w : CommandWord) (rest : List CommandWord) (i : Instr) (t : State)
      (h : s.stream = w :: rest) (hd : decode w = .ok i)
      (hr : Ran i { s with stream := rest } t) : Stepped s t
  /-- The word named no command. -/
  | illegal (w : CommandWord) (rest : List CommandWord) (e : DecodeError)
      (h : s.stream = w :: rest) (hd : decode w = .error e) :
      Stepped s (completeIllegal { s with stream := rest })

/-- Every step answers a next state, in one of the three ways. -/
theorem step_total (s : State) : ∃ t, step s = .next t ∧ Stepped s t := by
  cases hs : s.stream with
  | nil =>
    refine ⟨s, ?_, .idle hs⟩
    simp [step, fetch, hs, idle]
  | cons w rest =>
    cases hd : decode w with
    | ok i =>
      obtain ⟨t, ht, hr⟩ := exec_total i { s with stream := rest }
      refine ⟨t, ?_, .ran w rest i t hs hd hr⟩
      simp [step, fetch, hs, hd, ht]
    | error e =>
      refine ⟨_, ?_, .illegal w rest e hs hd⟩
      simp [step, fetch, hs, hd, illegalCommand]

/-- If a step answers a next state, it is one of the three ways. -/
theorem step_cases {s t : State} (h : step s = .next t) : Stepped s t := by
  obtain ⟨t', h', hr⟩ := step_total s
  rw [h] at h'
  cases h'
  exact hr

end Sys2Proof.Machine
end

