-- ==== Sys2Proof/Tests/Slice0.lean ====
section
/-! SUPPORT. Tests. The expected results are the vectors of spec/95_test_vectors.md (named in each
comment) or hand calculation from the rules; the witnesses meet the hypotheses of the statements. -/

namespace Sys2Proof.Tests

open Sys2Proof.Machine Sys2Proof.Statements

/-- A launch state with the default parameters, DEV, storage and answers as given. -/
def at' (dev : Dev) (fb : Memory) (env : List BusAnswer) : State :=
  { State.powerOn defaultParams fb [] env with dev := dev }

/-- A clear framebuffer, UNINIT, no answers listed. -/
def blank : State := at' .uninit [] []

/-- The next state an outcome holds. -/
def after (o : Host.Outcome State Fault Refusal) : Option State :=
  match o with
  | .next s => some s
  | .fault _ => none
  | .refused _ => none

/-- The storage after a command. -/
def fbAfter (i : Instr) (s : State) : Option Memory := (after (exec i s)).map State.fb

/-! ### WellFormed: an ill-formed term for each check -/

theorem test_wf_default : defaultParams.wf = true := by decide +kernel
theorem test_wf_fontSized : { defaultParams with font := [0, 0, 0] }.wf = false := by decide
theorem test_wf_spaceBlank :
    { defaultParams with font := 0x01#8 :: defaultParams.font.tail }.wf = false := by decide +kernel
theorem test_wf_bit7Clear :
    { defaultParams with font := defaultParams.font.set 5 0x80#8 }.wf = false := by decide +kernel
theorem test_wf_initSized : { defaultParams with initSeq := [[0xAF]] }.wf = false := by decide +kernel
theorem test_wf_instr (i : Instr) : i.wf = true := by cases i <;> rfl
theorem test_wf_memory_order : Memory.wf [(5, 1), (4, 1)] = false := by decide
theorem test_wf_memory_zero : Memory.wf [(5, 0)] = false := by decide
theorem test_wf_memory_outside : Memory.wf [(1024, 1)] = false := by decide

/-! ### Decode: words written out from R61 and R64 -/

/-- E6: CLEAR with junk in its unused fields. -/
theorem test_decode_clear : decode 0x01FFFFFFFFFF#48 = .ok .clear := by decide
/-- P-5. -/
theorem test_decode_setPixel : decode 0x02050AFFFF80#48 = .ok (.setPixel 5 10 0x80) := by decide
/-- L19: OP 00000011, x0 01111000, y0 00111100, x1 10000111, y1 01000110, color 00000001. -/
theorem test_decode_drawLine :
    decode 0b000000110111100000111100100001110100011000000001#48 =
      .ok (.drawLine 120 60 135 70 1) := by decide
/-- R-13. -/
theorem test_decode_drawRect : decode 0x0478000A0301#48 = .ok (.drawRect 120 0 10 3 1) := by decide
/-- F1. -/
theorem test_decode_fillRect : decode 0x0502262E0401#48 = .ok (.fillRect 2 38 46 4 1) := by decide
/-- G16. -/
theorem test_decode_drawChar : decode 0x06000041FFFF#48 = .ok (.drawChar 0 0 65) := by decide
/-- E2. -/
theorem test_decode_reserved : decode 0x07FFFFFFFFFF#48 = .ok .reservedSetFont := by decide
/-- E7. -/
theorem test_decode_init : decode 0x10ABCDEF0123#48 = .ok .init := by decide
/-- E8. -/
theorem test_decode_display : decode 0x110000000001#48 = .ok .display := by decide
/-- E1, E3, E4, E5. -/
theorem test_decode_illegal :
    decode 0x000000000000#48 = .error (.illegalOpcode 0x00) ∧
    decode 0x080000000000#48 = .error (.illegalOpcode 0x08) ∧
    decode 0x120000000000#48 = .error (.illegalOpcode 0x12) ∧
    decode 0xFF0102030405#48 = .error (.illegalOpcode 0xFF) := by decide
/-- R71's table. -/
theorem test_encode : encode (.drawLine 0x11 0x22 0x33 0x44 0x55) = 0x031122334455#48 ∧
    encode (.drawChar 36 24 53) = 0x062418350000#48 := by decide
theorem test_table_word : decodeTableWord 48 0x050000804001 = some (.fillRect 0 0 128 64 1) := by
  decide
theorem test_withFetchWord :
    (State.reset.withFetchWord 48 0x02050A000001).stream = [0x02050A000001#48] := by decide

/-! ### One command -/

/-- P-1 in small. -/
theorem test_clear :
    fbAfter .clear (at' .uninit [(0, 0xAA), (600, 0xAA), (1023, 0xAA)] []) = some [] := by decide +kernel
/-- P-4, P-9. -/
theorem test_setPixel : fbAfter (.setPixel 5 10 0x80) blank = some [(133, 0x04)] ∧
    fbAfter (.setPixel 5 10 0) (at' .failed [(133, 0xFF)] []) = some [(133, 0xFB)] := by decide
/-- P-6, P-7, P-11. -/
theorem test_setPixel_edge : fbAfter (.setPixel 128 0 1) blank = some [] ∧
    fbAfter (.setPixel 0 64 1) blank = some [] ∧
    fbAfter (.setPixel 127 63 1) blank = some [(1023, 0x80)] := by decide
/-- L8, with the error term at each plot. -/
theorem test_drawLine : lineCursors 0 0 5 2 =
    [⟨0, 0, 3⟩, ⟨1, 0, 1⟩, ⟨2, 1, 4⟩, ⟨3, 1, 2⟩, ⟨4, 2, 5⟩, ⟨5, 2, 3⟩] ∧
    fbAfter (.drawLine 0 0 5 2 1) blank = some [(0, 1), (1, 1), (2, 2), (3, 2), (4, 4), (5, 4)] := by
  decide
/-- L14 (a tie, reversed) and L19 (clipped). -/
theorem test_drawLine_tie_clip : fbAfter (.drawLine 2 1 0 0 1) blank = some [(0, 1), (1, 2), (2, 2)] ∧
    fbAfter (.drawLine 120 60 135 70 1) blank = some
      [(1016, 0x10), (1017, 0x20), (1018, 0x20), (1019, 0x40), (1020, 0x80), (1021, 0x80)] := by
  decide
/-- R-1. -/
theorem test_drawRect :
    fbAfter (.drawRect 10 10 3 3 1) blank = some [(138, 0x1C), (139, 0x14), (140, 0x1C)] := by
  decide
/-- R-5, R-9, R-12. -/
theorem test_drawRect_edge : fbAfter (.drawRect 5 5 0 3 1) blank = some [] ∧
    fbAfter (.drawRect 126 62 5 5 1) blank = some [(1022, 0xC0), (1023, 0x40)] ∧
    fbAfter (.drawRect 250 60 10 10 1) blank = some [] := by decide
/-- F2. -/
theorem test_fillRect : fbAfter (.fillRect 10 6 2 4 1) blank =
    some [(10, 0xC0), (11, 0xC0), (138, 0x03), (139, 0x03)] := by decide
/-- F8 (not wrapped), F9, F10 in small. -/
theorem test_fillRect_edge : fbAfter (.fillRect 250 0 10 10 1) blank = some [] ∧
    fbAfter (.fillRect 5 5 0 3 1) blank = some [] ∧
    fbAfter (.fillRect 1 1 2 2 0) (at' .uninit [(1, 0xFF), (2, 0xFF), (3, 0xFF)] []) =
      some [(1, 0xF9), (2, 0xF9), (3, 0xFF)] := by decide
/-- G2, reference font. -/
theorem test_drawChar : fbAfter (.drawChar 0 4 65) blank = some
    [(0, 0xE0), (1, 0x10), (2, 0x10), (3, 0x10), (4, 0xE0),
     (128, 0x07), (129, 0x01), (130, 0x01), (131, 0x01), (132, 0x07)] := by decide
/-- G3 (clipped), G7 (substitution, not clamping), G10 ('Z'), G13 (not wrapped). -/
theorem test_drawChar_edge : fbAfter (.drawChar 125 0 65) blank =
      some [(125, 0x7E), (126, 0x11), (127, 0x11)] ∧
    fbAfter (.drawChar 0 0 91) blank = some [] ∧
    fbAfter (.drawChar 0 0 90) blank =
      some [(0, 0x61), (1, 0x51), (2, 0x49), (3, 0x45), (4, 0x43)] ∧
    fbAfter (.drawChar 253 0 65) blank = some [] := by decide
/-- E2. -/
theorem test_reservedSetFont : after (exec .reservedSetFont blank) =
    some { blank with completions := [.errIllegal], index := 1 } := by decide +kernel
/-- I-2, I-6. -/
theorem test_init_probe_fails :
    (after (exec .init (at' .uninit [] [.fail, .ok]))).map
        (fun s => (s.dev, s.completions, s.trace, s.env)) =
      some (.failed, [.errProbe], [⟨0x3C, [], .fail⟩], [.ok]) ∧
    (after (exec .init (at' .failed [] [.ok]))).map (fun s => (s.dev, s.completions, s.trace)) =
      some (.failed, [.errProbe], []) := by decide
/-- I-3: the sixth of the 14 transactions is answered FAIL and ignored. -/
theorem test_init_config_fail_ignored :
    (after (exec .init (at' .uninit [] (.ok :: .ok :: .ok :: .ok :: .ok :: .fail ::
        List.replicate 8 .ok)))).map
        (fun s => (s.dev, s.completions, s.trace.length, s.trace[5]?)) =
      some (.initialized, [.ok], 14, some ⟨0x3C, [0x00, 0x8D, 0x14], .fail⟩) := by decide
/-- D-1, D-8: the fifth transaction, chunk 2, fails. -/
theorem test_display_gate_and_abort :
    after (exec .display blank) = some { blank with completions := [.warnNotInit], index := 1 } ∧
    (after (exec .display (at' .initialized [(32, 0xC0)] [.ok, .ok, .ok, .ok, .fail]))).map
        (fun s => (s.completions, s.trace.length, s.trace[0]?, s.trace[4]?)) =
      some ([.errTransfer], 5, some ⟨0x3C, [0x00, 0x21, 0x00, 0x7F], .ok⟩,
        some ⟨0x3C, 0x40 :: 0xC0 :: List.replicate 15 0x00, .fail⟩) := by decide +kernel
/-- D-3 and, for its chunk 63, the last byte of the framebuffer. -/
theorem test_display_whole :
    (after (exec .display (at' .initialized [(1023, 0xFF)] (List.replicate 70 .ok)))).map
        (fun s => (s.completions, s.trace.length, s.trace[65]?, s.env.length)) =
      some ([.ok], 66, some ⟨0x3C, 0x40 :: (List.replicate 15 0x00 ++ [0xFF]), .ok⟩, 4) := by decide
/-- R67 at a step, and the word behind still waiting. -/
theorem test_step_illegal :
    after (step { blank with stream := [0xFF0102030405#48, 0x010000000000#48] }) =
      some { blank with stream := [0x010000000000#48], completions := [.errIllegal],
                        index := 1 } := by decide +kernel

/-! ### Host side -/

/-- T2. -/
theorem test_printString : wordsOf (printString 120 0 [65, 66, 67, 68]) =
    [0x067800410000#48, 0x067E00420000#48] := by decide
/-- T4, T5. -/
theorem test_printString_edge : printString 128 0 [65] = [] ∧
    wordsOf (printString 127 0 [65, 66]) = [0x067F00410000#48] := by decide
/-- T9, T10, and the smallest 32-bit integer. -/
theorem test_dec : dec (-12) = [45, 49, 50] ∧ dec 0 = [48] ∧
    dec (-2147483648) = [45, 50, 49, 52, 55, 52, 56, 51, 54, 52, 56] := by decide
/-- R123's shape: "-23.5" and "57." with one digit. -/
theorem test_fixedPointShape : fixedPointShape 1 [45, 50, 51, 46, 53] = true ∧
    fixedPointShape 1 [53, 55, 46] = false := by decide
theorem test_assemble_quoted_separators :
    assembleLine (fun _ _ => []) "DRAW_CHAR 0, 0x40, ';' ; comment".toList =
      some [.drawChar 0 64 59] := by decide
theorem test_readCode : readCode { blank with completions := [.ok, .errIllegal], codesRead := 1 } =
    some (0x04, { blank with completions := [.ok, .errIllegal], codesRead := 2 }) := by decide +kernel

/-! ### Witnesses: states and operands that meet the statements' hypotheses -/

/-- A storage in canonical form with the first and the last byte listed. -/
def ends : Memory := [(0, 0x01), (1023, 0x80)]

theorem witness_canonical_memory : Memory.wf ends = true ∧ Memory.wf [] = true := by decide
theorem witness_LaunchStatesMeetInvariant : Memory.wf State.reset.fb = true := by decide
theorem witness_HostReadsOldestUnreadCode :
    ({ blank with completions := [.ok] } : State).completions[0]? = some .ok ∧
    blank.completions.length ≤ blank.codesRead := by decide
theorem witness_OpcodeAloneSelectsCommand :
    field (0x010000000000#48) 40 = 0x01 ∧ field (0x02FFFFFFFFFF#48) 40 = 0x02 ∧
    field (0x030000000000#48) 40 = 0x03 ∧ field (0x04FFFFFFFFFF#48) 40 = 0x04 ∧
    field (0x050000000000#48) 40 = 0x05 ∧ field (0x06FFFFFFFFFF#48) 40 = 0x06 ∧
    field (0x070000000000#48) 40 = 0x07 ∧ field (0x10FFFFFFFFFF#48) 40 = 0x10 ∧
    field (0x110000000000#48) 40 = 0x11 := by decide
/-- The edges of the illegal ranges of R67, one by one. -/
theorem witness_illegal_opcodes : ∀ op ∈ [0x00#8, 0x07#8, 0x08#8, 0x0F#8, 0x12#8, 0xFF#8],
    ¬ commandOpcode op := by
  simp [commandOpcode]
theorem witness_DecodeOfEncode : (Instr.fillRect 255 255 255 255 255).wf = true := by decide
theorem witness_UnusedFieldsIgnored :
    decode 0x01FFFFFFFFFF#48 = .ok .clear ∧
    0x01FFFFFFFFFF#48 &&& usedMask .clear = 0x010000000000#48 &&& usedMask .clear := by decide
theorem witness_PixelMappingIsBijection :
    byteIndex 0 0 = 0 ∧ byteIndex 127 63 = 1023 ∧ bitIndex 63 = 7 ∧ columnOf 612 = 100 ∧
    rowOf 612 5 = 37 := by decide
/-- The last pixel, and the first column and the first row off-screen. -/
theorem witness_PlotWritesOneBit :
    plot ends 127 63 false = [(0, 0x01)] ∧ plot ends 128 0 true = ends ∧
    plot ends 0 64 true = ends := by decide
theorem witness_PlotLaws : pixel ends 1 0 = false ∧ Memory.wf ends = true := by decide
theorem witness_drawing : Memory.wf (at' .uninit ends []).fb = true := by decide
theorem witness_SetPixelPlotsItsPixel : 128 ≤ (128#8).toNat ∧ 64 ≤ (64#8).toNat := by decide
theorem witness_LineWalkIsBresenham :
    (lineCursors 0 0 2 1)[1]? = some ⟨1, 0, 0⟩ ∧ (lineCursors 0 0 2 1)[2]? = some ⟨2, 1, 1⟩ := by
  decide
theorem witness_LineSymmetricIffTieFree :
    hasTie 0 0 2 1 := ⟨0, ⟨0, 0, 1⟩, by decide, by decide, by decide⟩
/-- The space glyph's edges 31, 32 and 91, and an aligned glyph at the last row of pages. -/
theorem witness_DrawCharProperties : blank.cfg.wf = true ∧ (31#8).toNat ≤ 32 ∧
    (32#8).toNat ≤ 32 ∧ 90 < (91#8).toNat ∧ (56#8).toNat % 8 = 0 ∧ (56#8).toNat < 64 ∧
    (123#8).toNat + 4 < 128 := by decide +kernel
theorem witness_InitProbesOnce :
    answerAt (at' .uninit [] [.fail]) 0 = .fail ∧ answerAt (at' .uninit [] [.ok]) 0 = .ok ∧
    (at' .uninit [] []).dev = .uninit ∧ (at' .failed [] []).dev = .failed ∧
    (at' .initialized [] []).dev = .initialized := by decide
theorem witness_DisplayFlushesWholeFramebuffer_ok :
    ∀ n < (flushOf defaultParams []).length,
      answerAt (at' .initialized [] (List.replicate 66 .ok)) n = .ok := by decide
/-- The first transaction fails, and the last one. -/
theorem witness_DisplayFlushesWholeFramebuffer_fail :
    (flushOf defaultParams [])[0]? = some [0x00, 0x21, 0x00, 0x7F] ∧
    answerAt (at' .initialized [] [.fail]) 0 = .fail ∧
    ((flushOf defaultParams [])[65]?).isSome = true ∧
    (∀ k < 65, answerAt (at' .initialized [] (List.replicate 65 .ok ++ [.fail])) k = .ok) ∧
    answerAt (at' .initialized [] (List.replicate 65 .ok ++ [.fail])) 65 = .fail := by decide
theorem witness_DisplayTwiceSendsTheSame :
    (∃ t, exec .display (at' .initialized ends [.fail]) = .next t) ∧
    (∃ t, exec .display (at' .initialized ends [.ok, .fail]) = .next t) := ⟨⟨_, rfl⟩, ⟨_, rfl⟩⟩
theorem witness_TransactionsAnsweredInOrder :
    (at' .uninit [] [.ok, .fail]).env[1]? = some .fail ∧ ∃ t, step State.reset = .next t :=
  ⟨by decide, _, rfl⟩
theorem witness_StepRunsDecodedCommand :
    ({ blank with stream := [0x010000000000#48] } : State).stream = 0x010000000000#48 :: [] ∧
    decode 0x010000000000#48 = .ok .clear ∧ blank.stream = [] := by decide
theorem witness_EncodeOfDecode : decode 0x06FFFFFFFFFF#48 = .ok (.drawChar 255 255 255) := by decide
/-- One waiting word of each kind: drawing, INIT, DISPLAY on an initialized device and not, illegal. -/
theorem witness_EveryCommandEndsWithOneCode :
    (∃ t, step { blank with stream := [0x060000410000#48] } = .next t) ∧
    (∃ t, step { blank with stream := [0x100000000000#48] } = .next t) ∧
    (∃ t, step { blank with stream := [0x110000000000#48] } = .next t) ∧
    (∃ t, step { at' .initialized [] [] with stream := [0x110000000000#48] } = .next t) ∧
    (∃ t, step { blank with stream := [0x120000000000#48] } = .next t) :=
  ⟨⟨_, rfl⟩, ⟨_, rfl⟩, ⟨_, rfl⟩, ⟨_, rfl⟩, ⟨_, rfl⟩⟩
theorem witness_AxisAndDiagonalLinesSymmetric :
    (5 : Nat) = 5 ∧ |(7 : Int) - 4| = |(0 : Int) - 3| ∧
    linePoints 4 3 7 0 = [(4, 3), (5, 2), (6, 1), (7, 0)] := by decide
theorem witness_LineStaysInBounds : ⟨1, 0, 0⟩ ∈ lineCursors 0 0 2 1 ∧ (0, 0) ≠ (2, 1) := by decide
theorem witness_RectanglePixelCounts : (127, 63) ∈ borderPoints 126 62 2 2 := by decide
theorem witness_OnlyInitWritesDev :
    ∃ t, step { at' .uninit [] [.ok] with stream := [0x100000000000#48] } = .next t ∧
      t.dev = .initialized := ⟨_, rfl, by decide⟩
theorem witness_DrawingIgnoresTheRest :
    (∃ t, exec .clear blank = .next t) ∧ (∃ t, exec .clear (at' .failed [] [.ok]) = .next t) ∧
    blank.fb = (at' .failed [] [.ok]).fb ∧ Instr.clear ≠ .init ∧ Instr.clear ≠ .display :=
  ⟨⟨_, rfl⟩, ⟨_, rfl⟩, rfl, by decide, by decide⟩
theorem witness_EveryStepKeepsInvariant : State.reset.Inv ∧ ∃ t, step State.reset = .next t :=
  ⟨⟨rfl, rfl, rfl, by simp [onlyDevice, State.reset]⟩, _, rfl⟩
/-- A legal record in a state where INIT probes, a command that is neither INIT nor DISPLAY, and the
shortest line and the two empty rectangles. -/
theorem witness_WorkPerCommandBounded :
    blank.cfg.wf = true ∧ blank.dev = .uninit ∧ Instr.clear ≠ .init ∧ Instr.clear ≠ .display ∧
    (linePoints 5 5 5 5).length = 1 ∧ borderPoints 0 0 0 255 = [] ∧ borderPoints 0 0 255 0 = [] := by
  decide +kernel
theorem witness_LaterWordsMakeNoDifference :
    ∃ t, runsTo 1 { blank with stream := [0x010000000000#48] } t := ⟨_, rfl⟩
theorem witness_ProbeFailureIsTerminal : (at' .failed ends []).dev = .failed ∧
    ∃ t, exec .clear { at' .failed ends [] with dev := .initialized } = .next t := ⟨rfl, _, rfl⟩
/-- The last column a character may start at, 127, and the first it may not, 128. -/
theorem witness_PrintStringExpansion :
    0 < (printString 127 0 [65]).length ∧ [65#8][0]? = some 65 ∧
    (printString 128 0 [65]).length = 0 := by decide
theorem witness_DecimalTextOfInteger : 0 < (1 : Nat) ∧ digits 1 = [49] := by decide

end Sys2Proof.Tests
end

section
/-! PROOFS. The device lifecycle: which operations leave DEV as it was, and the one that changes it
(R23). -/

namespace Sys2Proof.Machine

@[simp] theorem sendUntilFail_dev (ps : List (List Byte)) (s : State) :
    (sendUntilFail ps s).2.dev = s.dev := by
  obtain ⟨k, -, heq, -⟩ := sendUntilFail_cases ps s
  rw [heq]

@[simp] theorem displayFrame_dev (s : State) : (displayFrame s).dev = s.dev := by
  rcases displayFrame_cases s with ⟨-, heq⟩ | ⟨-, heq⟩
  · rw [heq, complete_dev]
  · rw [heq, flush, complete_dev, sendUntilFail_dev]

/-- INITIALIZED and FAILED are terminal (R23): an INIT that changes DEV found it UNINIT. -/
theorem initDevice_dev_changed {s : State} (h : (initDevice s).dev ≠ s.dev) :
    s.dev = .uninit ∧ ((initDevice s).dev = .initialized ∨ (initDevice s).dev = .failed) := by
  rcases initDevice_cases s with ⟨-, heq⟩ | ⟨-, heq⟩ | ⟨hd, -, heq⟩ | ⟨hd, -, heq⟩
  · exact absurd (by rw [heq, complete_dev]) h
  · exact absurd (by rw [heq, complete_dev]) h
  · exact ⟨hd, .inr (by rw [heq, complete_dev])⟩
  · exact ⟨hd, .inl (by rw [heq, complete_dev])⟩

/-- Only INIT writes DEV (R23): of the four ways a command can end, the other three keep it. -/
theorem Ran.dev_changed {i : Instr} {s t : State} (h : Ran i s t) (hne : t.dev ≠ s.dev) :
    i = .init ∧ s.dev = .uninit ∧ (t.dev = .initialized ∨ t.dev = .failed) := by
  cases h with
  | drew m hi hm => exact absurd rfl hne
  | illegal hi => exact absurd rfl hne
  | init hi => exact ⟨hi, initDevice_dev_changed hne⟩
  | display hi => exact absurd (displayFrame_dev s) hne

/-- Settles O37: an idle step and an illegal word keep DEV, and a command that changes it is INIT, whose
opcode is the word's. -/
theorem onlyInitWritesDev : Obligations.OnlyInitWritesDev := by
  intro s t hstep hne
  cases step_cases hstep with
  | idle hs => exact absurd rfl hne
  | illegal w rest e hs hd => exact absurd rfl hne
  | ran w rest i _ hs hd hr =>
    obtain ⟨rfl, hu, ht⟩ := hr.dev_changed hne
    exact ⟨hu, ht, w, rest, hs, (decode_opcode hd).symm⟩

end Sys2Proof.Machine
end

section
/-! PROOFS. The framebuffer's layout as R41 writes it, and one plot read through it (R43, R44). -/

namespace Sys2Proof.Machine

/-- R41's byte index, in the spelling of the spec. -/
theorem byteIndex_eq (x y : Nat) : byteIndex x y = x + 128 * (y / 8) := by
  rw [byteIndex, Config.width, Nat.mul_comm]

/-- R41's bit index, in the spelling of the spec. -/
theorem bitIndex_eq (y : Nat) : bitIndex y = y % 8 := rfl

/-- The plotted pixel's byte takes the colour at the pixel's bit and keeps its other seven bits (R44). -/
theorem bit_plot_same {m : Memory} (hm : Memory.wf m = true) {x y : Nat} (c : Bool) (hx : x < 128)
    (hy : y < 64) {b : Nat} (hb : b < 8) :
    (Memory.read (plot m x y c) (byteIndex x y)).getLsbD b =
      if b = bitIndex y then c else (Memory.read m (byteIndex x y)).getLsbD b := by
  rw [read_plot hm c hx hy, if_pos rfl, withBit_bit _ _ _ (bitIndex_lt y) _ hb]

/-- An on-screen pixel reads back as it was plotted. -/
theorem pixel_plot_same {m : Memory} (hm : Memory.wf m = true) {x y : Nat} (c : Bool) (hx : x < 128)
    (hy : y < 64) : pixel (plot m x y c) x y = c := by
  rw [pixel_plot hm x y c hx hy, if_pos ⟨rfl, rfl⟩]

/-- Settles O13: off-screen a plot is the identity; on-screen it rewrites one bit of the pixel's byte,
and a write inside the framebuffer keeps the canonical form. -/
theorem plotWritesOneBit : Obligations.PlotWritesOneBit := by
  intro m x y c hm
  rw [← byteIndex_eq, ← bitIndex_eq]
  refine ⟨fun hoff => plot_offScreen c (by omega), fun hx hy => ⟨?bits, ?others, ?reads, ?canonical⟩⟩
  case bits => exact fun b hb => bit_plot_same hm c hx hy hb
  case others => exact fun a ha => read_plot_other hm x y c fun _ _ => Ne.symm ha
  case reads => exact pixel_plot_same hm c hx hy
  case canonical => exact wf_plot hm x y c

end Sys2Proof.Machine
end

section
/-! PROOFS. The decoder: what each opcode decodes to, and which words decode to a given command
(R62, R64, R65). -/

namespace Sys2Proof

open Sys2Proof.Statements

/-! ### From the opcode to the command -/

section ByOpcode
variable {w : CommandWord}

theorem decode_clear (h : opField w = 0x01#8) : decode w = .ok .clear := by
  simp [decode, h]

theorem decode_setPixel (h : opField w = 0x02#8) :
    decode w = .ok (.setPixel (aField w) (bField w) (kField w)) := by
  simp [decode, h]

theorem decode_drawLine (h : opField w = 0x03#8) :
    decode w = .ok (.drawLine (aField w) (bField w) (cField w) (dField w) (kField w)) := by
  simp [decode, h]

theorem decode_drawRect (h : opField w = 0x04#8) :
    decode w = .ok (.drawRect (aField w) (bField w) (cField w) (dField w) (kField w)) := by
  simp [decode, h]

theorem decode_fillRect (h : opField w = 0x05#8) :
    decode w = .ok (.fillRect (aField w) (bField w) (cField w) (dField w) (kField w)) := by
  simp [decode, h]

theorem decode_drawChar (h : opField w = 0x06#8) :
    decode w = .ok (.drawChar (aField w) (bField w) (cField w)) := by
  simp [decode, h]

theorem decode_reservedSetFont (h : opField w = 0x07#8) : decode w = .ok .reservedSetFont := by
  simp [decode, h]

theorem decode_init (h : opField w = 0x10#8) : decode w = .ok .init := by
  simp [decode, h]

theorem decode_display (h : opField w = 0x11#8) : decode w = .ok .display := by
  simp [decode, h]

/-- The opcode of a command other than the reserved one is one of R64's eight. -/
theorem commandOpcode_opcode {i : Instr} (hi : i ≠ .reservedSetFont) : commandOpcode i.opcode := by
  cases i with
  | reservedSetFont => exact absurd rfl hi
  | _ => simp [commandOpcode, Instr.opcode]

/-- The reserved opcode is not one of R64's eight (R66). -/
theorem not_commandOpcode_reserved : ¬ commandOpcode (Instr.opcode .reservedSetFont) := by
  simp [commandOpcode, Instr.opcode]

/-- An error of the decoder names the opcode (R67). -/
theorem decode_error {e : DecodeError} (h : decode w = .error e) :
    e = .illegalOpcode (opField w) := by
  simp only [decode] at h
  split_ifs at h
  cases h
  rfl

/-- A word whose opcode is not in the map decodes to no command, since a command's opcode is the
word's. -/
theorem decode_illegal (h : ¬ commandOpcode (opField w)) (h7 : opField w ≠ 0x07#8) :
    decode w = .error (.illegalOpcode (opField w)) := by
  cases hd : decode w with
  | error e => rw [decode_error hd]
  | ok i =>
    rw [← decode_opcode hd] at h h7
    exact absurd (commandOpcode_opcode fun hi => h7 (by rw [hi]; rfl)) h

/-- A word that decodes to no command has none of R64's eight opcodes. -/
theorem not_commandOpcode_of_decode_error {e : DecodeError} (h : decode w = .error e) :
    ¬ commandOpcode (opField w) := by
  simp only [decode] at h
  split_ifs at h with h1 h2 h3 h4 h5 h6 h7 h10 h11
  simp only [← BitVec.toNat_inj] at h1 h2 h3 h4 h5 h6 h10 h11
  simp only [BitVec.toNat_ofNat] at h1 h2 h3 h4 h5 h6 h10 h11
  unfold commandOpcode
  omega

end ByOpcode

/-- Settles O6: one lemma per opcode of the map, and one for every opcode outside it. -/
theorem opcodeAloneSelectsCommand : Obligations.OpcodeAloneSelectsCommand := fun _ =>
  ⟨decode_clear, decode_setPixel, decode_drawLine, decode_drawRect, decode_fillRect,
    decode_drawChar, decode_reservedSetFont, decode_init, decode_display, decode_illegal⟩

/-! ### From the command to its words -/

/-- Words built from six bytes are equal exactly when the bytes are. -/
theorem mkWord_inj {op a b c d k op' a' b' c' d' k' : Byte} :
    mkWord op a b c d k = mkWord op' a' b' c' d' k' ↔
      op = op' ∧ a = a' ∧ b = b' ∧ c = c' ∧ d = d' ∧ k = k' := by
  refine ⟨fun h => ⟨?_, ?_, ?_, ?_, ?_, ?_⟩, fun ⟨ho, ha, hb, hc, hd, hk⟩ => by
    rw [ho, ha, hb, hc, hd, hk]⟩
  · simpa using congrArg opField h
  · simpa using congrArg aField h
  · simpa using congrArg bField h
  · simpa using congrArg cField h
  · simpa using congrArg dField h
  · simpa using congrArg kField h

/-- A word masked to some of its fields, the mask given byte by byte. -/
theorem and_mkWord (w : CommandWord) (op a b c d k : Byte) :
    w &&& mkWord op a b c d k =
      mkWord (opField w &&& op) (aField w &&& a) (bField w &&& b) (cField w &&& c)
        (dField w &&& d) (kField w &&& k) := by
  rw [← mkWord_and, mkWord_fields]

/-- The byte that masks nothing away. -/
theorem byte_and_ones (b : Byte) : b &&& 0xFF#8 = b := BitVec.and_allOnes

section Formats
variable (w : CommandWord)

/-- A word masked to format Z keeps the opcode alone (R62). -/
theorem and_formatZ : w &&& 0xFF0000000000#48 = mkWord (opField w) 0 0 0 0 0 := by
  rw [show 0xFF0000000000#48 = mkWord 0xFF#8 0 0 0 0 0 from rfl, and_mkWord]
  simp [byte_and_ones]

/-- A word masked to format P keeps OP, A, B and K (R62). -/
theorem and_formatP :
    w &&& 0xFFFFFF0000FF#48 = mkWord (opField w) (aField w) (bField w) 0 0 (kField w) := by
  rw [show 0xFFFFFF0000FF#48 = mkWord 0xFF#8 0xFF#8 0xFF#8 0 0 0xFF#8 from rfl, and_mkWord]
  simp [byte_and_ones]

/-- Format Q uses every field (R62). -/
theorem and_formatQ :
    w &&& 0xFFFFFFFFFFFF#48 =
      mkWord (opField w) (aField w) (bField w) (cField w) (dField w) (kField w) := by
  rw [mkWord_fields]
  exact BitVec.and_allOnes

/-- A word masked to format G keeps OP, A, B and C (R62). -/
theorem and_formatG :
    w &&& 0xFFFFFFFF0000#48 = mkWord (opField w) (aField w) (bField w) (cField w) 0 0 := by
  rw [show 0xFFFFFFFF0000#48 = mkWord 0xFF#8 0xFF#8 0xFF#8 0xFF#8 0 0 from rfl, and_mkWord]
  simp [byte_and_ones]

end Formats

/-- A word that decodes to a command is the command's encoding on the bits of its format (R62). -/
theorem and_usedMask_of_decode {w : CommandWord} {i : Instr} (h : decode w = .ok i) :
    w &&& usedMask i = encode i := by
  have hop := decode_opcode h
  simp only [decode] at h
  split_ifs at h <;> cases h <;>
    simp [usedMask, encode, and_formatZ, and_formatP, and_formatQ, and_formatG, ← hop,
      Instr.opcode]

/-- A word that is a command's encoding on the bits of its format decodes to the command (R65): OP
names it, and the other fields of the format are its operands. -/
theorem decode_of_and_usedMask {w : CommandWord} {i : Instr} (h : w &&& usedMask i = encode i) :
    decode w = .ok i := by
  cases i <;>
    simp only [usedMask, encode, and_formatZ, and_formatP, and_formatQ, and_formatG,
      mkWord_inj] at h <;>
    simp [decode, h]

/-- The words that decode to a command: those that are its encoding on the bits of its format (R62,
R65). -/
theorem decode_eq_ok_iff {w : CommandWord} {i : Instr} :
    decode w = .ok i ↔ w &&& usedMask i = encode i :=
  ⟨and_usedMask_of_decode, decode_of_and_usedMask⟩

/-- A command's encoding is zero outside the bits of its format (R62, R65). -/
theorem encode_and_usedMask (i : Instr) : encode i &&& usedMask i = encode i := by
  cases i <;> simp [encode, usedMask, and_formatZ, and_formatP, and_formatQ, and_formatG]

theorem decode_encode (i : Instr) : decode (encode i) = .ok i :=
  decode_eq_ok_iff.2 (encode_and_usedMask i)

/-- Settles O10: the value of a word is the weighted sum of its fields, and its fields give it
back. -/
theorem serialisedOpcodeFirst : Obligations.SerialisedOpcodeFirst := by
  intro w
  refine ⟨congrArg some (mkWord_fields w), _, _, _, _, _, _, rfl, ?_⟩
  have h := mkWord_toNat (opField w) (aField w) (bField w) (cField w) (dField w) (kField w)
  rw [mkWord_fields] at h
  rw [h]
  ring

end Sys2Proof
end

section
/-! PROOFS. One step of a waiting word, by what the decoder says of it (R66, R67, R73). -/

namespace Sys2Proof.Machine

open Sys2Proof.Statements

section Waiting
variable {s : State} {w : CommandWord} {rest : List CommandWord}

/-- A waiting word that decodes to a command is taken and the command runs. -/
theorem step_of_decode_ok {i : Instr} (hs : s.stream = w :: rest) (hd : decode w = .ok i) :
    step s = exec i { s with stream := rest } := by
  simp [step, fetch, hs, hd]

/-- A waiting word that decodes to no command is taken and reported. -/
theorem step_of_decode_error {e : DecodeError} (hs : s.stream = w :: rest)
    (hd : decode w = .error e) : step s = .next (completeIllegal { s with stream := rest }) := by
  simp [step, fetch, hs, hd, illegalCommand]

theorem exec_reservedSetFont (s : State) : exec .reservedSetFont s = .next (completeIllegal s) :=
  rfl

/-- A waiting word without one of the eight opcodes is taken and reported, the reserved opcode like
the opcodes outside the map. -/
theorem step_of_not_commandOpcode (hs : s.stream = w :: rest)
    (hop : ¬ commandOpcode (opField w)) :
    step s = .next (completeIllegal { s with stream := rest }) := by
  by_cases h7 : opField w = 0x07#8
  · rw [step_of_decode_ok hs (decode_reservedSetFont h7), exec_reservedSetFont]
  · exact step_of_decode_error hs (decode_illegal hop h7)

end Waiting

/-- Settles O9: the two words are the encoding of `i` on the same bits, so both decode to `i`. -/
theorem unusedFieldsIgnored : Obligations.UnusedFieldsIgnored := by
  intro w w' i s rest hd hagree
  have hd' : decode w' = .ok i := by
    rw [decode_eq_ok_iff, ← hagree]
    exact decode_eq_ok_iff.1 hd
  rw [step_of_decode_ok rfl hd, step_of_decode_ok rfl hd']

/-- Settles O35. -/
theorem illegalWordOnlyReports : Obligations.IllegalWordOnlyReports := fun _ _ _ hs hop =>
  step_of_not_commandOpcode hs hop

/-- Settles O28. -/
theorem reservedFontOpcodeIsIllegal : Obligations.ReservedFontOpcodeIsIllegal :=
  ⟨fun _ => decode_reservedSetFont, exec_reservedSetFont⟩

end Sys2Proof.Machine
end

section
/-! PROOFS. The end of a command: one completion code, the one that R68's table gives its opcode. -/

namespace Sys2Proof.Machine

open Sys2Proof.Statements

/-- From `s` to `t` one command ended with the code `c`, having issued the transactions `new`; the
words waiting in `s` still wait (R27, R68). -/
structure Completed (s t : State) (c : CompletionCode) (new : List BusRecord) : Prop where
  stream : t.stream = s.stream
  completions : t.completions = s.completions ++ [c]
  index : t.index = s.index + 1
  trace : t.trace = s.trace ++ new

/-- R68's table: `c` is the code of a word with opcode `op` that found DEV at `before`, left it at
`after` and issued the transactions `new`. -/
structure TableCode (op : Byte) (before after : Dev) (c : CompletionCode) (new : List BusRecord) :
    Prop where
  drawing : 0x01 ≤ op.toNat → op.toNat ≤ 0x06 → c = .ok
  init : op = 0x10#8 → c = if after = .failed then .errProbe else .ok
  displayGated : op = 0x11#8 → before ≠ .initialized → c = .warnNotInit
  displayFlushed : op = 0x11#8 → before = .initialized →
    ((∃ r ∈ new, r.answer = .fail) → c = .errTransfer) ∧ ((∀ r ∈ new, r.answer = .ok) → c = .ok)
  illegal : ¬ commandOpcode op → c = .errIllegal

/-- A command that ends without a transaction of its own. -/
theorem completed_complete (c : CompletionCode) (s : State) : Completed s (complete c s) c [] :=
  ⟨rfl, rfl, rfl, (List.append_nil _).symm⟩

/-! ### The rows of the table -/

theorem tableCode_drawing {op : Byte} (h : 0x01 ≤ op.toNat ∧ op.toNat ≤ 0x06) (before after : Dev)
    (new : List BusRecord) : TableCode op before after .ok new where
  drawing _ _ := rfl
  init := by rintro rfl; simp at h
  displayGated := by rintro rfl; simp at h
  displayFlushed := by rintro rfl; simp at h
  illegal hn := absurd (.inl h) hn

theorem tableCode_init (before after : Dev) (new : List BusRecord) :
    TableCode 0x10#8 before after (if after = .failed then .errProbe else .ok) new where
  drawing := by simp
  init _ := rfl
  displayGated := by simp
  displayFlushed := by simp
  illegal hn := absurd (.inr (.inl rfl)) hn

theorem tableCode_illegal {op : Byte} (h : ¬ commandOpcode op) (before after : Dev)
    (new : List BusRecord) : TableCode op before after .errIllegal new where
  drawing h1 h6 := absurd (.inl ⟨h1, h6⟩) h
  init := by rintro rfl; exact absurd (.inr (.inl rfl)) h
  displayGated := by rintro rfl; exact absurd (.inr (.inr rfl)) h
  displayFlushed := by rintro rfl; exact absurd (.inr (.inr rfl)) h
  illegal _ := rfl

theorem tableCode_display {before : Dev} (after : Dev) {c : CompletionCode} {new : List BusRecord}
    (hgated : before ≠ .initialized → c = .warnNotInit)
    (hflushed : before = .initialized →
      ((∃ r ∈ new, r.answer = .fail) → c = .errTransfer) ∧
      ((∀ r ∈ new, r.answer = .ok) → c = .ok)) :
    TableCode 0x11#8 before after c new where
  drawing := by simp
  init := by simp
  displayGated _ := hgated
  displayFlushed _ := hflushed
  illegal hn := absurd (.inr (.inr rfl)) hn

/-! ### INIT and DISPLAY -/

/-- INIT ends once, with ERR_PROBE exactly when it leaves DEV FAILED (R135). -/
theorem initDevice_completed (s : State) :
    ∃ new, Completed s (initDevice s)
      (if (initDevice s).dev = .failed then .errProbe else .ok) new := by
  rcases initDevice_cases s with ⟨hd, heq⟩ | ⟨hd, heq⟩ | ⟨-, -, heq⟩ | ⟨-, -, heq⟩
  · exact ⟨[], by simpa [heq, hd] using completed_complete .ok s⟩
  · exact ⟨[], by simpa [heq, hd] using completed_complete .errProbe s⟩
  · exact ⟨_, by rw [heq]; exact ⟨rfl, rfl, rfl, rfl⟩⟩
  · exact ⟨_, by rw [heq]; exact ⟨rfl, rfl, rfl, rfl⟩⟩

/-- A flush sequence adds records and uses up answers, and reports a failure exactly when one of its
records holds one (R137, R140). -/
theorem sendUntilFail_records (ps : List (List Byte)) (s : State) :
    ∃ k new, (sendUntilFail ps s).2 = { s with env := s.env.drop k, trace := s.trace ++ new } ∧
      ((sendUntilFail ps s).1 = .fail ↔ ∃ r ∈ new, r.answer = .fail) := by
  obtain ⟨k, hk, heq, hok, hfail⟩ := sendUntilFail_cases ps s
  refine ⟨k, _, heq, fun hf => ?_, ?_⟩
  · obtain ⟨n, rfl, -, hn⟩ := hfail hf
    exact ⟨_, List.mem_mapIdx.2 ⟨n, by rw [List.length_take]; omega, rfl⟩, hn⟩
  · rintro ⟨r, hr, hrf⟩
    obtain ⟨n, hn, rfl⟩ := List.mem_mapIdx.1 hr
    cases h : (sendUntilFail ps s).1 with
    | fail => rfl
    | ok =>
      have := (hok h).2 n (lt_of_lt_of_le hn (List.length_take_le _ _))
      exact absurd (hrf.symm.trans this) (by decide)

/-- DISPLAY ends once, with the code of its row of the table. -/
theorem displayFrame_completed (s : State) :
    ∃ c new, Completed s (displayFrame s) c new ∧
      TableCode 0x11#8 s.dev (displayFrame s).dev c new := by
  rcases displayFrame_cases s with ⟨hd, heq⟩ | ⟨hd, heq⟩
  · rw [heq]
    exact ⟨_, _, completed_complete _ s,
      tableCode_display _ (fun _ => rfl) fun h => absurd h hd⟩
  · obtain ⟨k, new, hsent, hfail⟩ := sendUntilFail_records (flushPayloads s.cfg s.fb) s
    rw [heq, flush, hsent]
    refine ⟨_, new, ⟨rfl, rfl, rfl, rfl⟩, tableCode_display _ (fun h => absurd hd h) fun _ =>
      ⟨fun h => by rw [hfail.2 h]; rfl, fun h => ?_⟩⟩
    cases ha : (sendUntilFail (flushPayloads s.cfg s.fb) s).1 with
    | ok => rfl
    | fail =>
      obtain ⟨r, hr, hrf⟩ := hfail.1 ha
      exact absurd ((h r hr).symm.trans hrf) (by decide)

/-! ### Every command, and every word -/

/-- The opcodes of CLEAR and the drawing commands are the six lowest of the map (R64). -/
theorem opcode_of_drawing {i : Instr} (hi : i ≠ .init ∧ i ≠ .display ∧ i ≠ .reservedSetFont) :
    0x01 ≤ i.opcode.toNat ∧ i.opcode.toNat ≤ 0x06 := by
  cases i <;> simp_all [Instr.opcode]

/-- Every command ends once, with the code of its opcode's row of the table. -/
theorem Ran.completed {i : Instr} {s t : State} (h : Ran i s t) :
    ∃ c new, Completed s t c new ∧ TableCode i.opcode s.dev t.dev c new := by
  cases h with
  | drew m hi hm =>
    exact ⟨.ok, [], ⟨rfl, rfl, rfl, (List.append_nil _).symm⟩,
      tableCode_drawing (opcode_of_drawing hi) ..⟩
  | illegal hi =>
    subst hi
    exact ⟨_, _, completed_complete _ s, tableCode_illegal not_commandOpcode_reserved ..⟩
  | init hi =>
    subst hi
    obtain ⟨new, hc⟩ := initDevice_completed s
    exact ⟨_, new, hc, tableCode_init ..⟩
  | display hi =>
    subst hi
    exact displayFrame_completed s

/-- A step of a waiting word takes it and ends once, with the code of the word's row of the
table. -/
theorem step_completed {s : State} {w : CommandWord} {rest : List CommandWord}
    (hs : s.stream = w :: rest) :
    ∃ t c new, step s = .next t ∧ Completed { s with stream := rest } t c new ∧
      TableCode (opField w) s.dev t.dev c new := by
  cases hd : decode w with
  | ok i =>
    obtain ⟨t, ht, hr⟩ := exec_total i { s with stream := rest }
    obtain ⟨c, new, hc, hcode⟩ := hr.completed
    rw [decode_opcode hd] at hcode
    exact ⟨t, c, new, (step_of_decode_ok hs hd).trans ht, hc, hcode⟩
  | error e =>
    exact ⟨_, _, _, step_of_decode_error hs hd, completed_complete _ _,
      tableCode_illegal (not_commandOpcode_of_decode_error hd) ..⟩

/-- Settles O36: the one code of a step is the one of R68's table. -/
theorem everyCommandEndsWithOneCode : Obligations.EveryCommandEndsWithOneCode := by
  refine ⟨⟨rfl, rfl, rfl, rfl, rfl⟩, fun s w rest hs => ?_⟩
  obtain ⟨t, c, new, ht, hc, hcode⟩ := step_completed hs
  exact ⟨t, c, new, ht, hc.stream, hc.completions, hc.index, hc.trace, hcode.drawing, hcode.init,
    hcode.displayGated, hcode.displayFlushed, hcode.illegal⟩

end Sys2Proof.Machine
end

section
/-! PROOFS. Running the words of a pseudo-command (R72). -/

namespace Sys2Proof.Machine

open Sys2Proof.Statements

/-- A machine that steps to `u` runs on as from `u`. -/
theorem core_run_succ (M : Host.Core) (k : Nat) {s u : M.State} (h : M.step s = .next u) :
    M.run (k + 1) s = M.run k u := by
  rw [Host.Core.run, h]

/-- No step is a run to where it starts. -/
theorem runsTo_zero (s : State) : runsTo 0 s s := rfl

/-- A step, then a run, is a run of one step more. -/
theorem runsTo_succ {k : Nat} {s u t : State} (hstep : step s = .next u) (hrun : runsTo k u t) :
    runsTo (k + 1) s t :=
  (core_run_succ core k hstep).trans hrun

/-- CLEAR and the drawing commands complete with OK and touch FB alone (R80, R83). -/
theorem exec_drawing {i : Instr} (hi : i ≠ .init ∧ i ≠ .display ∧ i ≠ .reservedSetFont)
    (s : State) : ∃ m, exec i s = .next (complete .ok { s with fb := m }) := by
  obtain ⟨t, ht, hr⟩ := exec_total i s
  obtain ⟨hinit, hdisplay, hreserved⟩ := hi
  cases hr with
  | drew m _ _ => exact ⟨m, ht⟩
  | illegal h => exact absurd h hreserved
  | init h => exact absurd h hinit
  | display h => exact absurd h hdisplay

/-- Running the words of drawing commands takes them all, appends one OK for each, and leaves DEV
and the bus alone. -/
theorem run_wordsOf_drawing (is : List Instr)
    (his : ∀ i ∈ is, i ≠ .init ∧ i ≠ .display ∧ i ≠ .reservedSetFont) (s : State) :
    ∃ t, runsTo is.length { s with stream := wordsOf is } t ∧
      t.stream = [] ∧ t.dev = s.dev ∧ t.trace = s.trace ∧ t.env = s.env ∧
      t.completions = s.completions ++ List.replicate is.length .ok := by
  induction is generalizing s with
  | nil => exact ⟨_, runsTo_zero _, rfl, rfl, rfl, rfl, (List.append_nil _).symm⟩
  | cons i is ih =>
    obtain ⟨hi, his⟩ := List.forall_mem_cons.1 his
    obtain ⟨m, hm⟩ := exec_drawing hi { s with stream := wordsOf is }
    obtain ⟨t, hrun, hstream, hdev, htrace, henv, hcodes⟩ :=
      ih his (complete .ok { s with fb := m })
    refine ⟨t, runsTo_succ ?_ hrun, hstream, hdev, htrace, henv, ?_⟩
    · rw [step_of_decode_ok rfl (decode_encode i)]
      exact hm
    · rw [hcodes, complete_completions, List.append_assoc, List.singleton_append,
        ← List.replicate_succ, List.length_cons]

/-- The expansion of a text is DRAW_CHAR commands and nothing else (R120). -/
theorem eq_drawChar_of_mem_printFrom {y : Byte} {cur : Nat} {text : List Byte} {i : Instr}
    (h : i ∈ printFrom y cur text) : ∃ x ch, i = .drawChar x y ch := by
  induction text generalizing cur with
  | nil => cases h
  | cons ch rest ih =>
    unfold printFrom at h
    split at h
    · cases h
    · rcases List.mem_cons.1 h with rfl | h
      · exact ⟨_, _, rfl⟩
      · exact ih h

/-- Settles O46: PRINT_NUMBER and PRINT_FLOAT are PRINT_STRING by definition, and a PRINT_STRING is
drawing commands only. -/
theorem pseudoCommandsCompleteWithOk : Obligations.PseudoCommandsCompleteWithOk := by
  refine ⟨fun _ _ _ => rfl, fun _ _ _ _ _ _ => rfl, fun s x y text => ?_⟩
  refine run_wordsOf_drawing _ (fun i hi => ?_) s
  obtain ⟨_, _, rfl⟩ := eq_drawChar_of_mem_printFrom hi
  simp

end Sys2Proof.Machine
end

section
/-! PROOFS. What a drawing command does to the framebuffer, read through R41's layout (R83), and the
two commands of 40_framebuffer_pixel.md. -/

namespace Sys2Proof.Machine

open Sys2Proof.Statements

/-! ### A drawing command -/

/-- The bit that the statements read is the model's pixel (R41, R45). -/
theorem bitAt_eq_pixel (m : Memory) (x y : Nat) : bitAt m x y = pixel m x y := by
  rw [bitAt, pixel, byteIndex_eq, bitIndex_eq]

/-- A command that plots a list of points draws every pixel set whose on-screen members are the
on-screen points of the list (R83). -/
theorem draws_of_exec_eq_draw {i : Instr} {s : State} {c : Bool} {ps : List (Nat × Nat)}
    {P : Nat → Nat → Prop} (hm : Memory.wf s.fb = true) (hexec : exec i s = .next (draw c ps s))
    (hP : ∀ x y, x < 128 → y < 64 → ((x, y) ∈ ps ↔ P x y)) : Draws i s c P := by
  refine ⟨plotAll c ps s.fb, hexec, wf_plotAll c ps hm, ?plotted, ?otherPixels, ?otherBytes⟩
  case plotted =>
    intro x y hx hy hxy
    rw [bitAt_eq_pixel, pixel_plotAll c ps hm hx hy, if_pos ((hP x y hx hy).2 hxy)]
  case otherPixels =>
    intro x y hx hy hxy
    rw [bitAt_eq_pixel, bitAt_eq_pixel, pixel_plotAll c ps hm hx hy,
      if_neg (mt (hP x y hx hy).1 hxy)]
  case otherBytes =>
    intro a ha
    refine read_plotAll_other c ps hm fun p hp hx hy => ?_
    rw [byteIndex_eq]
    exact ha p.1 p.2 hx hy ((hP p.1 p.2 hx hy).1 hp)

/-- A drawing command none of whose points is on-screen only completes (R43, R83). -/
theorem draw_offScreen (c : Bool) {ps : List (Nat × Nat)} (s : State)
    (h : ∀ p ∈ ps, ¬ (p.1 < 128 ∧ p.2 < 64)) : draw c ps s = complete .ok s := by
  have hfb : plotAll c ps s.fb = s.fb := by
    induction ps with
    | nil => rfl
    | cons p ps ih =>
      obtain ⟨hp, hps⟩ := List.forall_mem_cons.1 h
      rw [plotAll_cons, plot_offScreen c hp, ih hps]
  rw [draw, hfb]

/-! ### CLEAR and SET_PIXEL -/

theorem exec_clear (s : State) :
    exec .clear s = .next (complete .ok { s with fb := Memory.clearAll s.fb }) := rfl

theorem exec_setPixel (x y k : Byte) (s : State) :
    exec (.setPixel x y k) s = .next (draw (colour k) [(x.toNat, y.toNat)] s) := rfl

/-- Settles O15: the storage after CLEAR is the clear-all of the one before. -/
theorem clearZeroesFramebuffer : Obligations.ClearZeroesFramebuffer := by
  refine ⟨fun _ => decode_clear, fun s hm =>
    ⟨Memory.clearAll s.fb, exec_clear s, Memory.wf_clearAll hm, fun a ha => ?inside,
      fun a ha => ?outside⟩⟩
  case inside => rw [Memory.read_clearAll hm, if_pos ha]
  case outside => rw [Memory.read_clearAll hm, if_neg (Nat.not_lt.2 ha)]

/-- Settles O16: SET_PIXEL draws a list of one point. -/
theorem setPixelPlotsItsPixel : Obligations.SetPixelPlotsItsPixel := by
  refine ⟨fun _ => decode_setPixel, fun s x y k hm => ⟨?drawn, fun hoff => ?offScreen⟩⟩
  case drawn => exact draws_of_exec_eq_draw hm (exec_setPixel x y k s) (by simp)
  case offScreen =>
    have hdraw : draw (colour k) [(x.toNat, y.toNat)] s = complete .ok s :=
      draw_offScreen _ s fun p hp => by
        obtain rfl := List.mem_singleton.1 hp
        dsimp only
        omega
    rw [exec_setPixel, hdraw]
    rfl

end Sys2Proof.Machine
end

section
/-! PROOFS. The line's walk as an iteration of its step: the mirror image along the diagonal, the
invariant of a walk along x, and the endpoints plotted (R90, R92). -/

namespace Sys2Proof.Machine

/-! ### One coordinate's sign and distance -/

/-- The distance, walked in the direction of the sign, leads from one endpoint to the other. -/
theorem absDelta_mul_stepSign (a b : Nat) : (absDelta a b : Int) * stepSign a b = b - a := by
  unfold absDelta stepSign
  split <;> omega

/-- The sign is a unit, so equal walks along it are equally long. -/
theorem mul_stepSign_inj {a b : Nat} {m n : Int} (h : m * stepSign a b = n * stepSign a b) :
    m = n := by
  refine mul_right_cancel₀ (b := stepSign a b) ?_ h
  unfold stepSign
  split <;> decide

/-! ### The walk is an iteration -/

/-- Before the endpoint is reached the walk only repeats the step. -/
theorem lineWalk_eq_iterate {x0 y0 x1 y1 : Nat} (n : Nat) (c : LineCursor)
    (h : ∀ k < n, atEnd x1 y1 ((lineStep x0 y0 x1 y1)^[k] c) = false) :
    lineWalk x0 y0 x1 y1 (n + 1) c = List.iterate (lineStep x0 y0 x1 y1) c (n + 1) := by
  induction n generalizing c with
  | zero => simp [lineWalk]
  | succ n ih =>
    have hc : atEnd x1 y1 c = false := h 0 n.succ_pos
    have hrest := ih (lineStep x0 y0 x1 y1 c) fun k hk => h (k + 1) (Nat.succ_lt_succ hk)
    rw [lineWalk, hc, List.iterate, ← hrest]
    rfl

/-- The first pass is at the first endpoint. -/
theorem lineCursors_head? (x0 y0 x1 y1 : Nat) :
    (lineCursors x0 y0 x1 y1).head? = some (lineStart x0 y0 x1 y1) := rfl

/-- A line from a point to itself ends at its first pass. -/
theorem lineCursors_self (x y : Nat) : lineCursors x y x y = [lineStart x y x y] := by
  simp [lineCursors, linePasses, lineWalk, lineStart, atEnd]

/-! ### The mirror image: exchanging x and y turns the error's sign -/

/-- The cursor of the line with x and y exchanged. -/
def LineCursor.swap (c : LineCursor) : LineCursor := ⟨c.y, c.x, -c.err⟩

theorem lineStart_swap (x0 y0 x1 y1 : Nat) :
    (lineStart x0 y0 x1 y1).swap = lineStart y0 x0 y1 x1 := by
  simp [lineStart, LineCursor.swap]

theorem atEnd_swap (x1 y1 : Nat) (c : LineCursor) : atEnd y1 x1 c.swap = atEnd x1 y1 c := by
  simp [atEnd, LineCursor.swap, Bool.and_comm]

/-- `e2 > -dy` for a line is `e2 < dx` for its mirror image, and the other way round: the two strict
tests of R90 exchange their roles. -/
theorem lineStep_swap (x0 y0 x1 y1 : Nat) (c : LineCursor) :
    (lineStep x0 y0 x1 y1 c).swap = lineStep y0 x0 y1 x1 c.swap := by
  have hx : 2 * -c.err < (absDelta y0 y1 : Int) ↔ 2 * c.err > -(absDelta y0 y1 : Int) := by omega
  have hy : 2 * -c.err > -(absDelta x0 x1 : Int) ↔ 2 * c.err < (absDelta x0 x1 : Int) := by omega
  simp only [lineStep, stepX, stepY, LineCursor.swap, hx, hy]
  split_ifs <;> simp only [LineCursor.mk.injEq, true_and] <;> omega

theorem lineWalk_swap (x0 y0 x1 y1 n : Nat) (c : LineCursor) :
    lineWalk y0 x0 y1 x1 n c.swap = (lineWalk x0 y0 x1 y1 n c).map LineCursor.swap := by
  induction n generalizing c with
  | zero => rfl
  | succ n ih =>
    rw [lineWalk, lineWalk, atEnd_swap, ← lineStep_swap, ih, List.map_cons]
    split <;> rfl

theorem lineCursors_swap (x0 y0 x1 y1 : Nat) :
    lineCursors y0 x0 y1 x1 = (lineCursors x0 y0 x1 y1).map LineCursor.swap := by
  rw [lineCursors, lineCursors, linePasses, linePasses, max_comm, ← lineStart_swap, lineWalk_swap]

/-! ### The walk along x: as far in x as in y, and not of one point -/

/-- The cursor of a line along x after `k` steps: x has moved every time and y `j` times, the error is
what the moves have added up to, and it is within the bounds that make the next step move in x. -/
structure AlongX (x0 y0 x1 y1 k j : Nat) (c : LineCursor) : Prop where
  x_eq : c.x = x0 + k * stepSign x0 x1
  y_eq : c.y = y0 + j * stepSign y0 y1
  err_eq : c.err = (j + 1) * absDelta x0 x1 - (k + 1) * absDelta y0 y1
  lower : -(absDelta y0 y1 : Int) < 2 * c.err
  upper : 2 * c.err < 3 * absDelta x0 x1 - 2 * absDelta y0 y1

section AlongX
variable {x0 y0 x1 y1 k j : Nat} {c : LineCursor}

theorem alongX_lineStart (hdx : 0 < absDelta x0 x1) (hdy : absDelta y0 y1 ≤ absDelta x0 x1) :
    AlongX x0 y0 x1 y1 0 0 (lineStart x0 y0 x1 y1) := by
  constructor <;> simp only [lineStart] <;> push_cast <;> omega

/-- A step of a line along x moves in x, and in y when the error calls for it. -/
theorem AlongX.next (hdy : absDelta y0 y1 ≤ absDelta x0 x1) (h : AlongX x0 y0 x1 y1 k j c) :
    ∃ j', AlongX x0 y0 x1 y1 (k + 1) j' (lineStep x0 y0 x1 y1 c) := by
  obtain ⟨hx, hy, herr, hlower, hupper⟩ := h
  have hstepX : stepX x0 y0 x1 y1 (2 * c.err) c =
      { c with err := c.err - absDelta y0 y1, x := c.x + stepSign x0 x1 } := if_pos hlower
  rw [lineStep, hstepX, stepY]
  split_ifs with hmove
  · refine ⟨j + 1, ?_, ?_, ?_, ?_, ?_⟩ <;> dsimp only
    · rw [hx]; push_cast; ring
    · rw [hy]; push_cast; ring
    · rw [herr]; push_cast; ring
    · omega
    · omega
  · refine ⟨j, ?_, hy, ?_, ?_, ?_⟩ <;> dsimp only
    · rw [hx]; push_cast; ring
    · rw [herr]; push_cast; ring
    · omega
    · omega

theorem alongX_iterate (hdx : 0 < absDelta x0 x1) (hdy : absDelta y0 y1 ≤ absDelta x0 x1) (k : Nat) :
    ∃ j, AlongX x0 y0 x1 y1 k j ((lineStep x0 y0 x1 y1)^[k] (lineStart x0 y0 x1 y1)) := by
  induction k with
  | zero => exact ⟨0, alongX_lineStart hdx hdy⟩
  | succ k ih =>
    obtain ⟨j, hj⟩ := ih
    rw [Function.iterate_succ_apply']
    exact hj.next hdy

/-- The endpoint's x is reached by the last step only. -/
theorem AlongX.x_eq_end_iff (h : AlongX x0 y0 x1 y1 k j c) : c.x = x1 ↔ k = absDelta x0 x1 := by
  have hend := absDelta_mul_stepSign x0 x1
  rw [h.x_eq]
  constructor
  · intro hx
    exact_mod_cast mul_stepSign_inj (a := x0) (b := x1) (m := k) (n := absDelta x0 x1) (by omega)
  · rintro rfl
    omega

/-- The bounds on the error leave one value for the moves in y up to the last step: all of them. -/
theorem AlongX.y_moves_end (h : AlongX x0 y0 x1 y1 (absDelta x0 x1) j c) : j = absDelta y0 y1 := by
  obtain ⟨-, -, herr, hlower, hupper⟩ := h
  have hge : (absDelta y0 y1 : Int) < j + 1 := by nlinarith
  have hle : (j : Int) < absDelta y0 y1 + 1 := by nlinarith
  omega

theorem AlongX.eq_end (h : AlongX x0 y0 x1 y1 (absDelta x0 x1) j c) : c = ⟨x1, y1, c.err⟩ := by
  have hx : c.x = x1 := h.x_eq_end_iff.2 rfl
  have hy : c.y = y1 := by
    rw [h.y_eq, h.y_moves_end, absDelta_mul_stepSign]
    omega
  rw [← hx, ← hy]

/-- A line along x is an iteration of its step, once per pass. -/
theorem lineCursors_eq_iterate_of_alongX (hdx : 0 < absDelta x0 x1)
    (hdy : absDelta y0 y1 ≤ absDelta x0 x1) :
    lineCursors x0 y0 x1 y1 =
      List.iterate (lineStep x0 y0 x1 y1) (lineStart x0 y0 x1 y1) (absDelta x0 x1 + 1) := by
  rw [lineCursors, linePasses, max_eq_left hdy]
  refine lineWalk_eq_iterate _ _ fun k hk => ?_
  obtain ⟨j, hj⟩ := alongX_iterate hdx hdy k
  have hx := mt hj.x_eq_end_iff.1 hk.ne
  simp [atEnd, hx]

theorem lineCursors_getLast?_of_alongX (hdx : 0 < absDelta x0 x1)
    (hdy : absDelta y0 y1 ≤ absDelta x0 x1) :
    ∃ e, (lineCursors x0 y0 x1 y1).getLast? = some ⟨x1, y1, e⟩ := by
  obtain ⟨j, hj⟩ := alongX_iterate hdx hdy (absDelta x0 x1)
  refine ⟨_, Eq.trans ?_ (congrArg some hj.eq_end)⟩
  rw [lineCursors_eq_iterate_of_alongX hdx hdy, List.getLast?_eq_getElem?, List.length_iterate,
    Nat.add_sub_cancel, List.getElem?_iterate _ _ _ _ (Nat.lt_succ_self _)]

end AlongX

/-! ### The endpoints -/

/-- The last pass is at the second endpoint: a line is one point, goes along x, or is the mirror image
of one that does. -/
theorem lineCursors_getLast? (x0 y0 x1 y1 : Nat) :
    ∃ e, (lineCursors x0 y0 x1 y1).getLast? = some ⟨x1, y1, e⟩ := by
  rcases Nat.lt_or_ge (absDelta x0 x1) (absDelta y0 y1) with hy | hx
  · obtain ⟨e, he⟩ := lineCursors_getLast?_of_alongX (Nat.zero_lt_of_lt hy) hy.le
    exact ⟨-e, by rw [lineCursors_swap, List.getLast?_map, he]; rfl⟩
  · rcases Nat.eq_zero_or_pos (absDelta x0 x1) with hzero | hpos
    · obtain ⟨rfl, rfl⟩ : x0 = x1 ∧ y0 = y1 := by
        unfold absDelta at hzero hx
        omega
      exact ⟨_, by rw [lineCursors_self]; rfl⟩
    · exact lineCursors_getLast?_of_alongX hpos hx

theorem linePoints_self (x y : Nat) : linePoints x y x y = [(x, y)] := by
  rw [linePoints, lineCursors_self]
  rfl

theorem linePoints_head? (x0 y0 x1 y1 : Nat) :
    (linePoints x0 y0 x1 y1).head? = some (x0, y0) := by
  rw [linePoints, List.head?_map, lineCursors_head?]
  rfl

theorem linePoints_getLast? (x0 y0 x1 y1 : Nat) :
    (linePoints x0 y0 x1 y1).getLast? = some (x1, y1) := by
  obtain ⟨e, he⟩ := lineCursors_getLast? x0 y0 x1 y1
  rw [linePoints, List.getLast?_map, he]
  rfl

/-- Settles O20: the walk starts at the first endpoint and its last pass is at the second. -/
theorem lineTestableProperties : Obligations.LineTestableProperties :=
  ⟨linePoints_self, by decide, fun x0 y0 x1 y1 =>
    ⟨linePoints_head? x0 y0 x1 y1, linePoints_getLast? x0 y0 x1 y1⟩⟩

end Sys2Proof.Machine
end

section
/-! PROOFS. The points of the rectangle and of its border, and the two commands of 42_rect.md. -/

namespace Sys2Proof.Machine

open Sys2Proof.Statements

/-! ### The points of a rectangle -/

section Points
variable {x y w h px py : Nat}

/-- The cells of a half-open interval, counted from its start. -/
theorem exists_lt_add_eq_iff {a n k : Nat} : (∃ i, i < n ∧ a + i = k) ↔ a ≤ k ∧ k < a + n := by
  constructor
  · rintro ⟨i, hi, rfl⟩
    omega
  · intro hk
    exact ⟨k - a, by omega, by omega⟩

/-- R101: the rectangle is half-open in both directions. -/
theorem mem_rectPoints :
    (px, py) ∈ rectPoints x y w h ↔ (x ≤ px ∧ px < x + w) ∧ (y ≤ py ∧ py < y + h) := by
  rw [← exists_lt_add_eq_iff, ← exists_lt_add_eq_iff]
  simp only [rectPoints, List.mem_flatMap, List.mem_map, List.mem_range, Prod.mk.injEq]
  constructor
  · rintro ⟨j, hj, i, hi, hx, hy⟩
    exact ⟨⟨i, hi, hx⟩, ⟨j, hj, hy⟩⟩
  · rintro ⟨⟨i, hi, hx⟩, ⟨j, hj, hy⟩⟩
    exact ⟨j, hj, i, hi, hx, hy⟩

theorem mem_edgeRows :
    (px, py) ∈ edgeRows x y w h ↔ (x ≤ px ∧ px < x + w) ∧ (py = y ∨ py = y + h - 1) := by
  rw [← exists_lt_add_eq_iff]
  simp only [edgeRows, List.mem_flatMap, List.mem_range, List.mem_pair, Prod.mk.injEq]
  constructor
  · rintro ⟨i, hi, ⟨hx, hy⟩ | ⟨hx, hy⟩⟩
    · exact ⟨⟨i, hi, hx.symm⟩, .inl hy⟩
    · exact ⟨⟨i, hi, hx.symm⟩, .inr hy⟩
  · rintro ⟨⟨i, hi, hx⟩, hy⟩
    exact ⟨i, hi, hy.imp (⟨hx.symm, ·⟩) (⟨hx.symm, ·⟩)⟩

theorem mem_edgeColumns :
    (px, py) ∈ edgeColumns x y w h ↔ (px = x ∨ px = x + w - 1) ∧ (y ≤ py ∧ py < y + h) := by
  rw [← exists_lt_add_eq_iff]
  simp only [edgeColumns, List.mem_flatMap, List.mem_range, List.mem_pair, Prod.mk.injEq]
  constructor
  · rintro ⟨j, hj, ⟨hx, hy⟩ | ⟨hx, hy⟩⟩
    · exact ⟨.inl hx, ⟨j, hj, hy.symm⟩⟩
    · exact ⟨.inr hx, ⟨j, hj, hy.symm⟩⟩
  · rintro ⟨hx, ⟨j, hj, hy⟩⟩
    exact ⟨j, hj, hx.imp (⟨·, hy.symm⟩) (⟨·, hy.symm⟩)⟩

/-- R100: the border is the part of the rectangle in its first or last column or row; an empty
rectangle has none. -/
theorem mem_borderPoints :
    (px, py) ∈ borderPoints x y w h ↔ (px, py) ∈ rectPoints x y w h ∧
      (px = x ∨ px + 1 = x + w ∨ py = y ∨ py + 1 = y + h) := by
  rw [borderPoints, mem_rectPoints]
  split
  case isTrue hne =>
    rw [List.mem_append, mem_edgeRows, mem_edgeColumns]
    omega
  case isFalse hempty =>
    refine iff_of_false List.not_mem_nil ?_
    omega

/-- The border's points by their offsets from the corner. -/
theorem mem_borderPoints_iff_exists_offset :
    (px, py) ∈ borderPoints x y w h ↔ ∃ i j, i < w ∧ j < h ∧
      (i = 0 ∨ i + 1 = w ∨ j = 0 ∨ j + 1 = h) ∧ px = x + i ∧ py = y + j := by
  rw [mem_borderPoints, mem_rectPoints]
  constructor
  · intro hborder
    exact ⟨px - x, py - y, by omega⟩
  · rintro ⟨i, j, hi, hj, hedge, rfl, rfl⟩
    omega

end Points

/-! ### FILL_RECT and DRAW_RECT -/

theorem exec_fillRect (x y w h k : Byte) (s : State) :
    exec (.fillRect x y w h k) s =
      .next (draw (colour k) (rectPoints x.toNat y.toNat w.toNat h.toNat) s) := rfl

theorem exec_drawRect (x y w h k : Byte) (s : State) :
    exec (.drawRect x y w h k) s =
      .next (draw (colour k) (borderPoints x.toNat y.toNat w.toNat h.toNat) s) := rfl

/-- Settles O23: FILL_RECT draws the points of the rectangle. -/
theorem fillRectPlotsRectangle : Obligations.FillRectPlotsRectangle := by
  refine ⟨fun _ => decode_fillRect, fun s x y w h k hm =>
    draws_of_exec_eq_draw hm (exec_fillRect x y w h k s) fun px py _ _ => ?_⟩
  rw [mem_rectPoints, and_assoc]

/-- Settles O24: DRAW_RECT draws the points of the border. -/
theorem drawRectPlotsBorder : Obligations.DrawRectPlotsBorder :=
  ⟨fun _ => decode_drawRect, fun s x y w h k hm =>
    draws_of_exec_eq_draw hm (exec_drawRect x y w h k s) fun _ _ _ _ =>
      mem_borderPoints_iff_exists_offset⟩

end Sys2Proof.Machine
end

section
/-! PROOFS. The glyph's points and the character command of 43_glyph_text.md. -/

namespace Sys2Proof.Machine

open Sys2Proof.Statements

/-! ### The points of a glyph -/

section GlyphPoints
variable {x y px py : Nat}

/-- R114: the set bits of a column go straight down from its top. -/
theorem mem_columnPoints {col : Byte} :
    (px, py) ∈ columnPoints col x y ↔ px = x ∧ ∃ j, j < 8 ∧ col.getLsbD j = true ∧ py = y + j := by
  simp only [columnPoints, List.mem_map, List.mem_filter, List.mem_range, Prod.mk.injEq]
  constructor
  · rintro ⟨j, ⟨hj, hbit⟩, hx, hy⟩
    exact ⟨hx.symm, j, hj, hbit, hy.symm⟩
  · rintro ⟨hx, j, hj, hbit, hy⟩
    exact ⟨j, ⟨hj, hbit⟩, hx.symm, hy.symm⟩

/-- A bit of the glyph that R113 selects, read through the model's column bytes. -/
theorem glyphBit_eq (p : Params) (ch : Byte) (i j : Nat) :
    glyphBit p ch i j = (fontByte p (glyphIndex ch) i).getLsbD j := rfl

/-- R114, R113: the points of a character are the set bits of the selected glyph, offset by its
top-left corner. -/
theorem mem_glyphPoints {p : Params} {ch : Byte} :
    (px, py) ∈ glyphPoints p x y ch ↔ ∃ i j, i < 5 ∧ j < 8 ∧ glyphBit p ch i j = true ∧
      px = x + i ∧ py = y + j := by
  simp only [glyphPoints, List.mem_flatMap, List.mem_range, mem_columnPoints, glyphBit_eq]
  constructor
  · rintro ⟨i, hi, hx, j, hj, hbit, hy⟩
    exact ⟨i, j, hi, hj, hbit, hx, hy⟩
  · rintro ⟨i, j, hi, hj, hbit, hx, hy⟩
    exact ⟨i, hi, hx, j, hj, hbit, hy⟩

end GlyphPoints

/-! ### DRAW_CHAR -/

theorem exec_drawChar (x y ch : Byte) (s : State) :
    exec (.drawChar x y ch) s = .next (draw true (glyphPoints s.cfg x.toNat y.toNat ch) s) := rfl

/-- Settles O26: DRAW_CHAR draws the points of the selected glyph. -/
theorem drawCharPlotsGlyph : Obligations.DrawCharPlotsGlyph :=
  ⟨fun _ => decode_drawChar, fun s x y ch hm =>
    draws_of_exec_eq_draw hm (exec_drawChar x y ch s) fun _ _ _ _ => mem_glyphPoints⟩

end Sys2Proof.Machine
end

section
/-! PROOFS. The host-side texts of 43_glyph_text.md: where PRINT_STRING puts each character (R120), and
the decimal text of an integer, tied to Mathlib's `Nat.digits` (R121). -/

namespace Sys2Proof.Machine

/-! ### PRINT_STRING -/

/-- From cursor `cur` on, as many characters are issued as there are start columns `cur`, `cur + 6`, …
below the display width. -/
theorem length_printFrom (y : Byte) (cur : Nat) (text : List Byte) :
    (printFrom y cur text).length = min text.length ((133 - cur) / 6) := by
  induction text generalizing cur with
  | nil => simp [printFrom]
  | cons ch rest ih =>
    unfold printFrom
    split
    case isTrue hpast =>
      have : 128 ≤ cur := hpast
      rw [List.length_nil, List.length_cons]
      omega
    case isFalse hfits =>
      have : ¬ 128 ≤ cur := hfits
      rw [List.length_cons, List.length_cons, ih, Config.charAdvance]
      omega

/-- Command `k` of an expansion, if issued, draws character `k` at `6 * k` columns from the cursor. -/
theorem getElem?_printFrom {y : Byte} {cur k : Nat} {text : List Byte} {ch : Byte}
    (hk : cur + 6 * k < 128) (hch : text[k]? = some ch) :
    (printFrom y cur text)[k]? = some (.drawChar (BitVec.ofNat 8 (cur + 6 * k)) y ch) := by
  induction text generalizing cur k with
  | nil => cases hch
  | cons c rest ih =>
    have hfits : ¬ Config.width ≤ cur := by
      rw [Config.width]
      omega
    rw [printFrom, if_neg hfits]
    cases k with
    | zero =>
      obtain rfl := Option.some.inj hch
      rfl
    | succ k =>
      have hcur : cur + 6 * (k + 1) = cur + 6 + 6 * k := by omega
      rw [hcur] at hk ⊢
      exact ih hk hch

/-- Settles O45: the number of commands bounds the start column of each. -/
theorem printStringExpansion : Obligations.PrintStringExpansion := by
  intro x y text
  have hlen : (printString x y text).length = min text.length ((133 - x.toNat) / 6) :=
    length_printFrom y x.toNat text
  refine ⟨hlen, fun k ch hk hch => ?_⟩
  have hcol : x.toNat + 6 * k < 128 := by omega
  exact ⟨hcol, getElem?_printFrom hcol hch⟩

/-! ### The digits of a number -/

theorem toNat_digitCode {d : Nat} (hd : d < 10) : (digitCode d).toNat = 48 + d := by
  rw [digitCode, BitVec.toNat_ofNat]
  omega

/-- The model's digit loop writes the library's digits, which come least significant first, in the
opposite order; a number below `2 ^ fuel` does not run out of fuel. -/
theorem digitsFrom_eq {fuel n : Nat} (hn : 0 < n) (hfuel : n < 2 ^ fuel) (acc : List Byte) :
    digitsFrom fuel n acc = ((Nat.digits 10 n).map digitCode).reverse ++ acc := by
  induction fuel generalizing n acc with
  | zero =>
    rw [Nat.pow_zero] at hfuel
    omega
  | succ fuel ih =>
    rw [digitsFrom]
    split
    case isTrue hlt =>
      rw [Nat.digits_of_lt 10 n hn.ne' hlt]
      rfl
    case isFalse hge =>
      rw [Nat.pow_succ] at hfuel
      rw [ih (by omega) (by omega), Nat.digits_def' (by decide) hn, List.map_cons, List.reverse_cons,
        List.append_assoc, List.singleton_append]

theorem digits_of_pos {n : Nat} (hn : 0 < n) :
    digits n = ((Nat.digits 10 n).map digitCode).reverse := by
  rw [digits, digitsFrom_eq hn Nat.lt_log2_self, List.append_nil]

theorem digits_zero : digits 0 = [48#8] := rfl

/-- A text of digit codes, least significant digit written last, has the value of its digits. -/
theorem foldl_digitCodes {ds : List Nat} (hds : ∀ d ∈ ds, d < 10) :
    (ds.map digitCode).reverse.foldl (fun acc b => 10 * acc + (b.toNat - 48)) 0 =
      Nat.ofDigits 10 ds := by
  induction ds with
  | nil => rfl
  | cons d ds ih =>
    obtain ⟨hd, hds⟩ := List.forall_mem_cons.1 hds
    rw [List.map_cons, List.reverse_cons, List.foldl_append, ih hds, List.foldl_cons, List.foldl_nil,
      toNat_digitCode hd, Nat.ofDigits_cons, Nat.add_sub_cancel_left, Nat.add_comm]

theorem isDigit_of_mem_digits {n : Nat} {b : Byte} (hb : b ∈ digits n) :
    48 ≤ b.toNat ∧ b.toNat ≤ 57 := by
  obtain rfl | hn := Nat.eq_zero_or_pos n
  · obtain rfl := List.mem_singleton.1 hb
    decide
  · rw [digits_of_pos hn, List.mem_reverse] at hb
    obtain ⟨d, hd, rfl⟩ := List.mem_map.1 hb
    have hlt : d < 10 := Nat.digits_lt_base (by decide) hd
    rw [toNat_digitCode hlt]
    omega

theorem value_digits (n : Nat) :
    (digits n).foldl (fun acc b => 10 * acc + (b.toNat - 48)) 0 = n := by
  obtain rfl | hn := Nat.eq_zero_or_pos n
  · rfl
  · rw [digits_of_pos hn, foldl_digitCodes fun d hd => Nat.digits_lt_base (by decide) hd,
      Nat.ofDigits_digits]

/-- The first digit written is the library's last, which is not zero. -/
theorem head?_digits_ne_zero {n : Nat} (hn : 0 < n) : (digits n).head? ≠ some 48#8 := by
  have hne : Nat.digits 10 n ≠ [] := Nat.digits_ne_nil_iff_ne_zero.2 hn.ne'
  have hlt : (Nat.digits 10 n).getLast hne < 10 :=
    Nat.digits_lt_base (by decide) (List.getLast_mem hne)
  rw [digits_of_pos hn, List.head?_reverse, List.getLast?_map, List.getLast?_eq_some_getLast hne]
  intro hzero
  have hcode := congrArg BitVec.toNat (Option.some.inj hzero)
  rw [toNat_digitCode hlt] at hcode
  exact Nat.getLast_digit_ne_zero 10 hn.ne' (Nat.add_left_cancel hcode)

theorem digits_ne_nil (n : Nat) : digits n ≠ [] := by
  intro hnil
  obtain rfl : 0 = n := by
    rw [← value_digits n, hnil]
    rfl
  cases hnil

/-! ### The text of an integer -/

/-- R121: a minus sign before the digits of the absolute value. -/
theorem dec_neg {n : Nat} (hn : 0 < n) : dec (-(n : Int)) = 45#8 :: digits n := by
  obtain ⟨m, rfl⟩ := Nat.exists_eq_succ_of_ne_zero hn.ne'
  rfl

/-- Settles O47: the digits are the library's base-10 digits in reading order. -/
theorem decimalTextOfInteger : Obligations.DecimalTextOfInteger :=
  ⟨fun n => ⟨fun _ => isDigit_of_mem_digits, value_digits n, head?_digits_ne_zero, digits_ne_nil n⟩,
    digits_zero, fun _ => rfl, fun _ => dec_neg, fun _ _ _ => rfl⟩

end Sys2Proof.Machine
end

section
/-! PROOFS. The device commands of 44_device_flush.md: INIT by what it finds (R135), DISPLAY by the
answers (R137), and the layout of a flush (R138). -/

namespace Sys2Proof.Machine

open Sys2Proof.Statements

/-! ### The payloads -/

theorem length_initPayloads (p : Params) : (initPayloads p).length = p.initSeq.length :=
  List.length_map ..

/-- R136: the configuration records are those of the model's configuration payloads. -/
theorem configRecords_eq (s : State) (n : Nat) :
    configRecords s n =
      (initPayloads s.cfg).mapIdx fun k p => deviceRecord p (answerAt s (n + k)) := by
  refine List.ext_getElem? fun k => ?_
  rw [configRecords, initPayloads, List.getElem?_mapIdx, List.getElem?_mapIdx, List.getElem?_map,
    Option.map_map]
  rfl

theorem length_configRecords (s : State) (n : Nat) :
    (configRecords s n).length = s.cfg.initSeq.length :=
  List.length_mapIdx ..

/-- R136: a legal parameter record has 13 configuration entries. -/
theorem length_initSeq_of_wf {p : Params} (h : p.wf = true) : p.initSeq.length = 13 := by
  rw [Params.wf, Bool.and_eq_true, Params.initSized, beq_iff_eq] at h
  exact h.2

/-- R138: the last chunk ends at the last framebuffer byte, so none of the 64 is cut short. -/
theorem chunkPayload_eq (p : Params) (m : Memory) {k : Nat} (hk : k < 64) :
    chunkPayload p m k =
      p.ctrlData :: (List.range 16).map fun j => Memory.read m (16 * k + j) := by
  have hfull : min (k * 16 + 16) 1024 - k * 16 = 16 := by omega
  rw [chunkPayload, Config.chunk, Config.fbBytes, hfull, List.range'_eq_map_range, List.map_map,
    Nat.mul_comm k]
  rfl

theorem flushPayloads_eq_flushOf (p : Params) (m : Memory) : flushPayloads p m = flushOf p m :=
  congrArg (p.windowSeq.map (commandPayload p) ++ ·) <|
    List.map_congr_left fun _ hk => chunkPayload_eq p m (List.mem_range.1 hk)

/-- The indices below `a * n` in order are `n` blocks of `a` in a row. -/
theorem flatMap_range_blocks {α : Type} (f : Nat → α) (a n : Nat) :
    ((List.range n).flatMap fun k => (List.range a).map fun j => f (a * k + j)) =
      (List.range (a * n)).map f := by
  induction n with
  | zero => rfl
  | succ n ih =>
    rw [List.range_succ, List.flatMap_append, ih, List.flatMap_singleton, Nat.mul_succ,
      List.range_add, List.map_append, List.map_map]
    rfl

/-- Settles O31: the chunks stand behind the window, and joined they run through the framebuffer in
64 blocks of 16 bytes. -/
theorem flushCarriesEveryByteInOrder : Obligations.FlushCarriesEveryByteInOrder := by
  intro p m
  have hlen : (p.windowSeq.map (p.ctrlCmd :: ·)).length = p.windowSeq.length := List.length_map ..
  rw [flushPayloads_eq_flushOf, flushOf, List.take_left' hlen, List.drop_left' hlen]
  refine ⟨?length, rfl, ?chunks, ?bytes⟩
  case length => rw [List.length_append, hlen, List.length_map, List.length_range]
  case chunks =>
    intro c hc
    obtain ⟨k, -, rfl⟩ := List.mem_map.1 hc
    exact ⟨by rw [List.length_cons, List.length_map, List.length_range], rfl⟩
  case bytes =>
    rw [List.flatMap_map]
    exact flatMap_range_blocks (Memory.read m) 16 64

/-! ### INIT -/

theorem exec_init (s : State) : exec .init s = .next (initDevice s) := rfl

theorem initDevice_of_initialized {s : State} (hd : s.dev = .initialized) :
    initDevice s = complete .ok s := by
  rw [initDevice, hd]

theorem initDevice_of_failed {s : State} (hd : s.dev = .failed) :
    initDevice s = complete .errProbe s := by
  rw [initDevice, hd]

/-- R135: a failed probe is the one transaction of an INIT. -/
theorem initDevice_of_probe_fail {s : State} (hd : s.dev = .uninit) (h0 : answerAt s 0 = .fail) :
    initDevice s = complete .errProbe
      { s with dev := .failed, env := s.env.drop 1,
               trace := s.trace ++ [deviceRecord [] .fail] } := by
  simpa only [hd, h0, reduceCtorEq, false_and, false_or, or_false, true_and]
    using initDevice_cases s

/-- R135: an answered probe is followed by the whole configuration sequence. -/
theorem initDevice_of_probe_ok {s : State} (hd : s.dev = .uninit) (h0 : answerAt s 0 = .ok) :
    initDevice s = complete .ok
      { s with dev := .initialized, env := s.env.drop (1 + s.cfg.initSeq.length),
               trace := s.trace ++ deviceRecord [] .ok :: configRecords s 1 } := by
  rw [configRecords_eq, ← length_initPayloads]
  simpa only [hd, h0, reduceCtorEq, false_and, false_or, true_and] using initDevice_cases s

/-- Settles O29: INIT by DEV, and from UNINIT by the answer to the probe. -/
theorem initProbesOnce : Obligations.InitProbesOnce :=
  ⟨fun _ => decode_init, fun s =>
    ⟨fun hd => congrArg _ (initDevice_of_initialized hd),
      fun hd => congrArg _ (initDevice_of_failed hd),
      fun hd h0 => congrArg _ (initDevice_of_probe_fail hd h0),
      fun hd h0 => congrArg _ (initDevice_of_probe_ok hd h0),
      fun hwf => (length_configRecords s 1).trans (length_initSeq_of_wf hwf)⟩⟩

/-! ### DISPLAY -/

theorem exec_display (s : State) : exec .display s = .next (displayFrame s) := rfl

theorem displayFrame_of_not_initialized {s : State} (hd : s.dev ≠ .initialized) :
    displayFrame s = complete .warnNotInit s :=
  (displayFrame_cases s).elim And.right fun h => absurd h.1 hd

theorem displayFrame_of_initialized {s : State} (hd : s.dev = .initialized) :
    displayFrame s = flush s :=
  (displayFrame_cases s).elim (fun h => absurd hd h.1) And.right

/-- Settles O30: DISPLAY is gated by DEV, and a flush is its sequence up to the first FAIL. -/
theorem displayFlushesWholeFramebuffer : Obligations.DisplayFlushesWholeFramebuffer := by
  refine ⟨fun _ => decode_display, fun s => ?_⟩
  rw [exec_display, ← flushPayloads_eq_flushOf]
  refine ⟨fun hd => ?gated, fun hd hok => ?allOk, fun hd n p hp hok hfail => ?firstFail⟩
  case gated => exact congrArg _ (displayFrame_of_not_initialized hd)
  case allOk =>
    rw [displayFrame_of_initialized hd, flush, sendUntilFail_allOk hok]
    rfl
  case firstFail =>
    rw [displayFrame_of_initialized hd, flush, sendUntilFail_fail hp hok hfail]
    rfl

end Sys2Proof.Machine
end

section
/-! PROOFS. A failed probe is terminal for the device and for nothing else (R151): no step of a FAILED
state leaves it or sends anything, and the commands that do not use the device do not see DEV. -/

namespace Sys2Proof.Machine

open Sys2Proof.Statements

/-- What every step keeps holds at the end of a run of any length, and there is such a run. -/
theorem exists_runsTo_of_step_keeps {P : State → Prop}
    (hkeep : ∀ {s t}, P s → step s = .next t → P t) (n : Nat) {s : State} (h : P s) :
    ∃ t, runsTo n s t ∧ P t := by
  induction n generalizing s with
  | zero => exact ⟨s, runsTo_zero s, h⟩
  | succ n ih =>
    obtain ⟨u, hstep, -⟩ := step_total s
    obtain ⟨t, hrun, ht⟩ := ih (hkeep h hstep)
    exact ⟨t, runsTo_succ hstep hrun, ht⟩

/-! ### No command leaves FAILED or sends from it -/

/-- A command on a FAILED device issues no transaction: INIT and DISPLAY only report. -/
theorem Ran.trace_of_failed {i : Instr} {s t : State} (h : Ran i s t) (hd : s.dev = .failed) :
    t.trace = s.trace := by
  cases h with
  | drew m hi hm => rfl
  | illegal hi => rfl
  | init hi => rw [initDevice_of_failed hd, complete_trace]
  | display hi => rw [displayFrame_of_not_initialized (by simp [hd]), complete_trace]

/-- A FAILED device stays FAILED (R23): a command that changes DEV found it UNINIT. -/
theorem Ran.dev_of_failed {i : Instr} {s t : State} (h : Ran i s t) (hd : s.dev = .failed) :
    t.dev = .failed := by
  by_contra hne
  obtain ⟨-, hu, -⟩ := h.dev_changed (by rwa [hd])
  simp [hd] at hu

/-- A step of a FAILED state leaves DEV and the bus trace as they were, whatever word waits. -/
theorem step_of_failed {s t : State} (hd : s.dev = .failed) (hstep : step s = .next t) :
    t.dev = .failed ∧ t.trace = s.trace := by
  cases step_cases hstep with
  | idle hs => exact ⟨hd, rfl⟩
  | illegal w rest e hs hw => exact ⟨hd, rfl⟩
  | ran w rest i _ hs hw hr => exact ⟨hr.dev_of_failed hd, hr.trace_of_failed hd⟩

/-! ### The other commands do not depend on DEV -/

/-- Ending a command does not touch DEV. -/
theorem complete_withDev (c : CompletionCode) (s : State) (d : Dev) :
    complete c { s with dev := d } = { complete c s with dev := d } := rfl

/-- A command other than INIT and DISPLAY neither reads nor writes DEV (R83, R151): started with
another DEV it does the same and ends with that DEV. CLEAR goes through its equation, which keeps its
1024 bytes folded. -/
theorem exec_withDev {i : Instr} (hinit : i ≠ .init) (hdisplay : i ≠ .display) {s t : State}
    (h : exec i s = .next t) (d : Dev) :
    exec i { s with dev := d } = .next { t with dev := d } := by
  cases i with
  | init => exact absurd rfl hinit
  | display => exact absurd rfl hdisplay
  | clear =>
    rw [exec_clear, Host.Outcome.next.injEq] at h
    rw [exec_clear, ← h, ← complete_withDev]
  | _ =>
    cases h
    rfl

/-- Settles O44: a step of a FAILED state keeps DEV and the trace, so a run of any length does. -/
theorem probeFailureIsTerminal : Obligations.ProbeFailureIsTerminal := by
  refine ⟨fun s hd h0 => ?probe, fun n s hd => ?run, fun s hd => ⟨?display, ?init⟩,
    fun i s t hinit hdisplay h => ?others⟩
  case probe =>
    exact ⟨_, (exec_init s).trans (congrArg _ (initDevice_of_probe_fail hd h0)), rfl, rfl⟩
  case run =>
    refine exists_runsTo_of_step_keeps (fun ⟨hu, htrace⟩ hstep => ?_) n ⟨hd, rfl⟩
    obtain ⟨hdev, hsame⟩ := step_of_failed hu hstep
    exact ⟨hdev, hsame.trans htrace⟩
  case display => exact congrArg _ (displayFrame_of_not_initialized (by simp [hd]))
  case init => exact congrArg _ (initDevice_of_failed hd)
  case others => exact exec_withDev hinit hdisplay h .failed

end Sys2Proof.Machine
end

section
/-! PROOFS. The launch states (R19, R171): reset and power off and on lead to one. -/

namespace Sys2Proof.Machine

/-- Power off and on keeps the parameters and nothing else of the old state: no word waits (R170). -/
theorem powerCycle_eq_powerOn (fb : Memory) (env : List BusAnswer) (s : State) :
    powerCycle fb env s = State.powerOn s.cfg fb [] env := rfl

/-- The reset state is the launch state with the spec's default parameters, no byte of FB listed, no
word waiting and no answer listed. -/
theorem reset_eq_powerOn : State.reset = State.powerOn defaultParams [] [] [] := rfl

/-- Settles O1: the fields of a launch state, power off and on, and reset. -/
theorem launchStateAfterReset : Obligations.LaunchStateAfterReset := by
  refine ⟨fun cfg fb ws env => ?fields, powerCycle_eq_powerOn, _, _, _, _, reset_eq_powerOn⟩
  case fields =>
    exact ⟨powerOn_dev .., powerOn_fb .., powerOn_cfg .., powerOn_completions .., powerOn_trace ..⟩

end Sys2Proof.Machine
end

section
/-! PROOFS. Decoding and encoding undo each other (R62, R65), and the sample words and assembler lines
of 95_test_vectors.md. -/

namespace Sys2Proof

/-- Settles O7: every command's encoding is itself on the bits of its format, and such a word decodes
to the command. -/
theorem decodeOfEncode : Obligations.DecodeOfEncode := fun i _ => decode_encode i

/-- Settles O8. -/
theorem encodeOfDecode : Obligations.EncodeOfDecode := fun _ _ hd =>
  (and_usedMask_of_decode hd).symm

/-- Settles O5: each word by the lemma of its opcode. -/
theorem sampleWordsDecode : Obligations.SampleWordsDecode :=
  ⟨decode_clear rfl, decode_setPixel rfl, decode_drawLine rfl, decode_drawRect rfl,
    decode_fillRect rfl, decode_drawChar rfl, decode_reservedSetFont rfl, decode_init rfl,
    decode_display rfl, rfl, rfl⟩

/-- Settles O11: the assembler evaluated on each line; no line of them reaches FormatFixed. -/
theorem assemblerSampleLines : Obligations.AssemblerSampleLines :=
  ⟨fun _ => rfl, fun _ => rfl, fun _ => rfl, fun _ => rfl, fun _ => rfl, fun _ => rfl⟩

end Sys2Proof
end

section
/-! PROOFS. Status and completion codes as the host reads them (R18, R22). -/

namespace Sys2Proof.Machine

/-- 0b11 is reserved (R25): no value of DEV has it. -/
theorem devBits_ne_reserved (d : Dev) : devBits d ≠ 0b11#2 := by cases d <;> decide

theorem initializedFlag_iff (d : Dev) : initializedFlag d = true ↔ d = .initialized := by
  rw [initializedFlag, beq_iff_eq]

/-- Settles O3. -/
theorem statusBitEncodings : Obligations.StatusBitEncodings :=
  ⟨rfl, rfl, rfl, devBits_ne_reserved, initializedFlag_iff⟩

/-- With every code read there is none to read. -/
theorem readCode_of_all_read {s : State} (h : s.completions.length ≤ s.codesRead) :
    readCode s = none := by
  rw [readCode, List.getElem?_eq_none h]

/-- The oldest unread code is read, and the read position moves on. -/
theorem readCode_of_unread {s : State} {c : CompletionCode}
    (h : s.completions[s.codesRead]? = some c) :
    readCode s = some (completionByte c, { s with codesRead := s.codesRead + 1 }) := by
  rw [readCode, h]

/-- Settles O4. -/
theorem hostReadsOldestUnreadCode : Obligations.HostReadsOldestUnreadCode := fun _ =>
  ⟨readCode_of_all_read, fun _ => readCode_of_unread⟩

end Sys2Proof.Machine
end

section
/-! PROOFS. The bus traffic of a step: the transactions it issues behind those issued before, each with
the environment's answer to its place (R14, R130, R131). -/

namespace Sys2Proof.Machine

open Sys2Proof.Statements

/-- The records of the payloads `ps` sent from `s`, each with the answer to its place. -/
def sentRecords (s : State) (ps : List (List Byte)) : List BusRecord :=
  ps.mapIdx fun n p => deviceRecord p (answerAt s n)

/-- Between `s` and `t` the payloads `ps` were sent and nothing else happened on the bus. -/
structure Sends (s t : State) (ps : List (List Byte)) : Prop where
  trace : t.trace = s.trace ++ sentRecords s ps
  env : t.env = s.env.drop ps.length

theorem length_sentRecords (s : State) (ps : List (List Byte)) :
    (sentRecords s ps).length = ps.length := List.length_mapIdx ..

theorem sentRecords_cons (s : State) (p : List Byte) (ps : List (List Byte)) :
    sentRecords s (p :: ps) =
      deviceRecord p (answerAt s 0) :: ps.mapIdx fun n p => deviceRecord p (answerAt s (n + 1)) :=
  List.mapIdx_cons

/-- The payloads are read back from the records. -/
theorem payload_sentRecords (s : State) (ps : List (List Byte)) :
    (sentRecords s ps).map BusRecord.payload = ps := by
  refine List.ext_getElem? fun n => ?_
  rw [sentRecords, List.getElem?_map, List.getElem?_mapIdx, Option.map_map]
  exact congrFun Option.map_id _

theorem address_of_mem_sentRecords {s : State} {ps : List (List Byte)} {r : BusRecord}
    (h : r ∈ sentRecords s ps) : r.address = Config.devAddr := by
  obtain ⟨_, _, rfl⟩ := List.mem_mapIdx.1 h
  rfl

/-- What leaves the bus trace and the answers to come alone sends nothing. -/
theorem sends_nil {s t : State} (htrace : t.trace = s.trace) (henv : t.env = s.env) :
    Sends s t [] :=
  ⟨by rw [htrace]; exact (List.append_nil _).symm, henv⟩

/-- INIT sends nothing, or the probe, or the probe and the configuration sequence (R135). -/
theorem initDevice_sends (s : State) :
    ∃ ps, Sends s (initDevice s) ps ∧ ps.length ≤ 1 + s.cfg.initSeq.length := by
  rcases initDevice_cases s with ⟨-, heq⟩ | ⟨-, heq⟩ | ⟨-, h0, heq⟩ | ⟨-, h0, heq⟩
  · exact ⟨[], by rw [heq]; exact sends_nil rfl rfl, Nat.zero_le _⟩
  · exact ⟨[], by rw [heq]; exact sends_nil rfl rfl, Nat.zero_le _⟩
  · refine ⟨[[]], ?_, Nat.le_add_right ..⟩
    rw [heq]
    exact ⟨by rw [sentRecords_cons, h0]; rfl, rfl⟩
  · refine ⟨[] :: initPayloads s.cfg, ?_, by
      rw [List.length_cons, length_initPayloads, Nat.add_comm]⟩
    rw [heq]
    refine ⟨?_, by rw [List.length_cons, Nat.add_comm]; rfl⟩
    rw [sentRecords_cons, h0]
    simp only [Nat.add_comm 1]
    rfl

/-- DISPLAY sends the first payloads of a whole flush, or nothing (R137). -/
theorem displayFrame_sends (s : State) :
    ∃ k, Sends s (displayFrame s) ((flushPayloads s.cfg s.fb).take k) := by
  rcases displayFrame_cases s with ⟨-, heq⟩ | ⟨-, heq⟩
  · exact ⟨0, by rw [heq]; exact sends_nil rfl rfl⟩
  · obtain ⟨k, hk, hsent, -⟩ := sendUntilFail_cases (flushPayloads s.cfg s.fb) s
    refine ⟨k, ?_⟩
    rw [heq, flush, hsent]
    exact ⟨rfl, by rw [List.length_take, Nat.min_eq_left hk]; rfl⟩

theorem Ran.sends {i : Instr} {s t : State} (h : Ran i s t) : ∃ ps, Sends s t ps := by
  cases h with
  | drew m hi hm => exact ⟨[], sends_nil rfl rfl⟩
  | illegal hi => exact ⟨[], sends_nil rfl rfl⟩
  | init hi => exact (initDevice_sends s).imp fun _ h => h.1
  | display hi => exact (displayFrame_sends s).elim fun _ h => ⟨_, h⟩

theorem step_sends {s t : State} (h : step s = .next t) : ∃ ps, Sends s t ps := by
  cases step_cases h with
  | idle hs => exact ⟨[], sends_nil rfl rfl⟩
  | illegal w rest e hs hd => exact ⟨[], sends_nil rfl rfl⟩
  | ran w rest i _ hs hd hr =>
    obtain ⟨ps, hps⟩ := hr.sends
    exact ⟨ps, hps.trace, hps.env⟩

/-- Settles O33: whatever the step was, it sent some payloads. -/
theorem transactionsAnsweredInOrder : Obligations.TransactionsAnsweredInOrder :=
  ⟨fun _ _ _ => answerAt_listed, fun _ _ hstep =>
    (step_sends hstep).imp fun _ h => ⟨h.trace, h.env⟩⟩

/-! ### How many payloads of a flush are sent -/

/-- `k` of `len` payloads are sent when the sequence ends after its first FAIL (R137, R140). -/
def SentUntilFail (s : State) (len k : Nat) : Prop :=
  (k = len ∧ ∀ n < k, answerAt s n = .ok) ∨
    ∃ n < len, k = n + 1 ∧ (∀ j < n, answerAt s j = .ok) ∧ answerAt s n = .fail

/-- The answers fix how many payloads are sent: a first FAIL has one place. -/
theorem SentUntilFail.unique {s s' : State} {len k k' : Nat} (h : SentUntilFail s len k)
    (h' : SentUntilFail s' len k') (hsame : ∀ n < len, answerAt s n = answerAt s' n) : k = k' := by
  have hclash {u : State} {n : Nat} (hok : answerAt u n = .ok) (hfail : answerAt u n = .fail) :
      False := by simp [hok] at hfail
  rcases h with ⟨rfl, hok⟩ | ⟨n, hn, rfl, hok, hfail⟩ <;>
    rcases h' with ⟨rfl, hok'⟩ | ⟨n', hn', rfl, hok', hfail'⟩
  · rfl
  · exact (hclash (hok n' hn') ((hsame n' hn').trans hfail')).elim
  · exact (hclash (hok' n hn) ((hsame n hn).symm.trans hfail)).elim
  · rcases lt_trichotomy n n' with hlt | rfl | hgt
    · exact (hclash (hok' n hlt) ((hsame n hn).symm.trans hfail)).elim
    · rfl
    · exact (hclash (hok n' hgt) ((hsame n' hn').trans hfail')).elim

/-- A flush of an initialized device sends the payloads up to its first FAIL. -/
theorem flush_payloads {s t : State} (hd : s.dev = .initialized) (h : exec .display s = .next t) :
    ∃ k, SentUntilFail s (flushOf s.cfg s.fb).length k ∧
      t.trace.map BusRecord.payload =
        s.trace.map BusRecord.payload ++ (flushOf s.cfg s.fb).take k := by
  rw [exec_display, displayFrame_of_initialized hd, Host.Outcome.next.injEq] at h
  rw [← flushPayloads_eq_flushOf]
  obtain ⟨k, hk, hsent, hok, hfail⟩ := sendUntilFail_cases (flushPayloads s.cfg s.fb) s
  refine ⟨k, ?_, ?_⟩
  · cases ha : (sendUntilFail (flushPayloads s.cfg s.fb) s).1 with
    | ok => exact .inl (hok ha)
    | fail =>
      obtain ⟨n, rfl, hn⟩ := hfail ha
      exact .inr ⟨n, hk, rfl, hn⟩
  · rw [← h, flush, complete_trace, hsent, List.map_append]
    exact congrArg _ (payload_sentRecords s _)

/-- Settles O32: both flushes send a beginning of the same payloads, and the answers fix how long a
one. -/
theorem displayTwiceSendsTheSame : Obligations.DisplayTwiceSendsTheSame := by
  intro s s' t t' hfb hcfg hd hd' ht ht'
  obtain ⟨k, hcount, hsent⟩ := flush_payloads hd ht
  obtain ⟨k', hcount', hsent'⟩ := flush_payloads hd' ht'
  rw [← hfb, ← hcfg] at hcount' hsent'
  refine ⟨_, _, hsent, hsent', ?beginning, fun hsame => ?same⟩
  case beginning =>
    exact (Nat.le_total k k').imp List.take_prefix_take_left List.take_prefix_take_left
  case same => rw [hcount.unique hcount' hsame]

end Sys2Proof.Machine
end

section
/-! PROOFS. The invariant of the block (R19, R27, R68, R135, R141): it holds in every launch state and
every step keeps it. -/

namespace Sys2Proof.Machine

/-! ### What each part of the invariant reads -/

/-- Once the probe has been answered, it stays the first transaction, whatever is sent behind it. -/
theorem lifecycleMatches_of_initialized {s t : State} {new : List BusRecord}
    (hs : s.trace.head? = some ⟨Config.devAddr, [], .ok⟩) (hd : t.dev = .initialized)
    (ht : t.trace = s.trace ++ new) : lifecycleMatches t := by
  rw [lifecycleMatches, hd, ht, List.head?_append, hs]
  rfl

/-- DEV and the bus trace agree after a step that changes neither. -/
theorem lifecycleMatches_of_same {s t : State} (h : lifecycleMatches s) (hd : t.dev = s.dev)
    (ht : t.trace = s.trace) : lifecycleMatches t := by
  unfold lifecycleMatches
  rw [hd, ht]
  exact h

/-! ### INIT and DISPLAY leave FB as it was -/

@[simp] theorem initDevice_fb (s : State) : (initDevice s).fb = s.fb := by
  rcases initDevice_cases s with ⟨-, heq⟩ | ⟨-, heq⟩ | ⟨-, -, heq⟩ | ⟨-, -, heq⟩ <;>
    rw [heq, complete_fb]

@[simp] theorem displayFrame_fb (s : State) : (displayFrame s).fb = s.fb := by
  rcases displayFrame_cases s with ⟨-, heq⟩ | ⟨-, heq⟩
  · rw [heq, complete_fb]
  · obtain ⟨k, -, hsent, -⟩ := sendUntilFail_cases (flushPayloads s.cfg s.fb) s
    rw [heq, flush, complete_fb, hsent]

/-! ### Every command keeps the invariant -/

theorem Ran.wf_fb {i : Instr} {s t : State} (h : Ran i s t) (hs : Memory.wf s.fb = true) :
    Memory.wf t.fb = true := by
  cases h with
  | drew m hi hm => exact hm hs
  | illegal hi => exact hs
  | init hi => rwa [initDevice_fb]
  | display hi => rwa [displayFrame_fb]

theorem initDevice_lifecycle {s : State} (hs : lifecycleMatches s) :
    lifecycleMatches (initDevice s) := by
  rcases initDevice_cases s with ⟨-, heq⟩ | ⟨-, heq⟩ | ⟨hd, -, heq⟩ | ⟨hd, -, heq⟩
  · rw [heq]; exact hs
  · rw [heq]; exact hs
  · rw [lifecycleMatches, hd] at hs
    rw [heq, hs]
    rfl
  · rw [lifecycleMatches, hd] at hs
    rw [heq, hs]
    rfl

theorem displayFrame_lifecycle {s : State} (hs : lifecycleMatches s) :
    lifecycleMatches (displayFrame s) := by
  rcases displayFrame_cases s with ⟨-, heq⟩ | ⟨hd, -⟩
  · rw [heq]; exact hs
  · obtain ⟨k, hsends⟩ := displayFrame_sends s
    rw [lifecycleMatches, hd] at hs
    exact lifecycleMatches_of_initialized hs ((displayFrame_dev s).trans hd) hsends.trace

theorem Ran.lifecycle {i : Instr} {s t : State} (h : Ran i s t) (hs : lifecycleMatches s) :
    lifecycleMatches t := by
  cases h with
  | drew m hi hm => exact lifecycleMatches_of_same hs rfl rfl
  | illegal hi => exact lifecycleMatches_of_same hs rfl rfl
  | init hi => exact initDevice_lifecycle hs
  | display hi => exact displayFrame_lifecycle hs

/-- Transactions go to the display device only. -/
theorem Sends.onlyDevice {s t : State} {ps : List (List Byte)} (h : Sends s t ps)
    (hs : onlyDevice s) : onlyDevice t := by
  intro r hr
  rw [h.trace, List.mem_append] at hr
  exact hr.elim (hs r) address_of_mem_sentRecords

theorem Completed.oneCodeEach {s t : State} {c : CompletionCode} {new : List BusRecord}
    (h : Completed s t c new) (hs : s.completions.length = s.index) :
    t.completions.length = t.index := by
  rw [h.completions, h.index, List.length_append, hs, List.length_singleton]

/-- Every command keeps the invariant, whichever of the four ways it ends. -/
theorem Ran.inv {i : Instr} {s t : State} (h : Ran i s t) (hs : s.Inv) : t.Inv where
  canonical := h.wf_fb hs.canonical
  oneCodeEach := by
    obtain ⟨c, new, hc, -⟩ := h.completed
    exact hc.oneCodeEach hs.oneCodeEach
  lifecycle := h.lifecycle hs.lifecycle
  device := by
    obtain ⟨ps, hps⟩ := h.sends
    exact hps.onlyDevice hs.device

/-- The invariant does not speak of the waiting words. -/
theorem State.Inv.withStream {s : State} (h : s.Inv) (ws : List CommandWord) :
    State.Inv { s with stream := ws } :=
  ⟨h.canonical, h.oneCodeEach, h.lifecycle, h.device⟩

/-- An illegal word adds one code and moves on by one position (R67). -/
theorem completeIllegal_inv {s : State} (hs : s.Inv) : (completeIllegal s).Inv :=
  ⟨hs.canonical, (completed_complete _ s).oneCodeEach hs.oneCodeEach, hs.lifecycle, hs.device⟩

/-- Settles O40: by what a step can do, each part of the invariant by its own lemma over commands. -/
theorem everyStepKeepsInvariant : Obligations.EveryStepKeepsInvariant := by
  intro s t hs hstep
  cases step_cases hstep with
  | idle h => exact hs
  | illegal w rest e h hd => exact completeIllegal_inv (hs.withStream rest)
  | ran w rest i _ h hd hr => exact hr.inv (hs.withStream rest)

/-- Settles O2: a launch state has UNINIT and empty histories. -/
theorem launchStatesMeetInvariant : Obligations.LaunchStatesMeetInvariant := fun _ _ _ _ hfb =>
  ⟨hfb, rfl, rfl, fun _ hr => absurd hr List.not_mem_nil⟩

end Sys2Proof.Machine
end

section
/-! PROOFS. What a step leaves alone (R21, R196), and what the next FB depends on
(45_common_laws.md section 6). -/

namespace Sys2Proof.Machine

open Sys2Proof.Statements

/-! ### Parameters and the host's read position -/

/-- The parts of the state that no step writes. -/
structure SameHost (s t : State) : Prop where
  cfg : t.cfg = s.cfg
  codesRead : t.codesRead = s.codesRead

theorem initDevice_sameHost (s : State) : SameHost s (initDevice s) := by
  rcases initDevice_cases s with ⟨-, heq⟩ | ⟨-, heq⟩ | ⟨-, -, heq⟩ | ⟨-, -, heq⟩ <;>
    exact ⟨by rw [heq, complete_cfg], by rw [heq, complete_codesRead]⟩

theorem displayFrame_sameHost (s : State) : SameHost s (displayFrame s) := by
  rcases displayFrame_cases s with ⟨-, heq⟩ | ⟨-, heq⟩
  · exact ⟨by rw [heq, complete_cfg], by rw [heq, complete_codesRead]⟩
  · obtain ⟨k, -, hsent, -⟩ := sendUntilFail_cases (flushPayloads s.cfg s.fb) s
    exact ⟨by rw [heq, flush, complete_cfg, hsent], by rw [heq, flush, complete_codesRead, hsent]⟩

theorem Ran.sameHost {i : Instr} {s t : State} (h : Ran i s t) : SameHost s t := by
  cases h with
  | drew m hi hm => exact ⟨rfl, rfl⟩
  | illegal hi => exact ⟨rfl, rfl⟩
  | init hi => exact initDevice_sameHost s
  | display hi => exact displayFrame_sameHost s

/-! ### The bus and FB, by the command -/

/-- Only INIT and DISPLAY use the bus (R196). -/
theorem Ran.bus_of_not_device {i : Instr} {s t : State} (h : Ran i s t) (hinit : i ≠ .init)
    (hdisplay : i ≠ .display) : t.trace = s.trace ∧ t.env = s.env := by
  cases h with
  | drew m hi hm => exact ⟨rfl, rfl⟩
  | illegal hi => exact ⟨rfl, rfl⟩
  | init hi => exact absurd hi hinit
  | display hi => exact absurd hi hdisplay

/-- Only commands with the six lowest opcodes write FB (R21). -/
theorem Ran.fb_of_not_drawing {i : Instr} {s t : State} (h : Ran i s t)
    (hop : i.opcode.toNat = 0 ∨ 0x06 < i.opcode.toNat) : t.fb = s.fb := by
  cases h with
  | drew m hi hm =>
    have := opcode_of_drawing hi
    omega
  | illegal hi => rfl
  | init hi => exact initDevice_fb s
  | display hi => exact displayFrame_fb s

/-- Settles O38: a word's opcode is its command's, and an illegal word only reports. -/
theorem onlyDeviceCommandsUseBus : Obligations.OnlyDeviceCommandsUseBus := by
  intro s t w rest hs hstep
  cases step_cases hstep with
  | idle h => simp [h] at hs
  | illegal _ _ e h hd => exact ⟨fun _ _ => ⟨rfl, rfl⟩, fun _ => rfl, rfl, rfl⟩
  | ran w' rest' i _ h hd hr =>
    obtain ⟨rfl, rfl⟩ : w' = w ∧ rest' = rest := by simpa using h.symm.trans hs
    have hop : field w' 40 = i.opcode := (decode_opcode hd).symm
    rw [hop]
    refine ⟨fun h10 h11 => ?bus, fun hlow => ?fb, hr.sameHost.cfg, hr.sameHost.codesRead⟩
    case bus =>
      exact hr.bus_of_not_device (fun hi => h10 (by rw [hi]; rfl)) fun hi => h11 (by rw [hi]; rfl)
    case fb => exact hr.fb_of_not_drawing hlow

/-! ### The next FB -/

/-- The points of a character depend on the parameters through the font alone. -/
theorem glyphPoints_congr_font {p p' : Params} (h : p.font = p'.font) (x y : Nat) (ch : Byte) :
    glyphPoints p x y ch = glyphPoints p' x y ch := by
  simp only [glyphPoints, fontByte, h]

/-- The next FB of a drawing command, from the old FB and the font in the parameters. -/
def drawnFb (i : Instr) (p : Params) (m : Memory) : Memory :=
  match i with
  | .clear => Memory.clearAll m
  | .setPixel x y k => plot m x.toNat y.toNat (colour k)
  | .drawLine x0 y0 x1 y1 k =>
    plotAll (colour k) (linePoints x0.toNat y0.toNat x1.toNat y1.toNat) m
  | .drawRect x y w h k => plotAll (colour k) (borderPoints x.toNat y.toNat w.toNat h.toNat) m
  | .fillRect x y w h k => plotAll (colour k) (rectPoints x.toNat y.toNat w.toNat h.toNat) m
  | .drawChar x y ch => plotAll true (glyphPoints p x.toNat y.toNat ch) m
  | .reservedSetFont => m
  | .init => m
  | .display => m

/-- The FB after any command is `drawnFb` of the one before. -/
theorem fb_of_exec {i : Instr} {s t : State} (h : exec i s = .next t) :
    t.fb = drawnFb i s.cfg s.fb := by
  cases i with
  | init => cases h; exact initDevice_fb s
  | display => cases h; exact displayFrame_fb s
  | clear =>
    rw [exec_clear, Host.Outcome.next.injEq] at h
    rw [← h, complete_fb, drawnFb]
  | _ => cases h; rfl

theorem drawnFb_congr_font {p p' : Params} (h : p.font = p'.font) (i : Instr) (m : Memory) :
    drawnFb i p m = drawnFb i p' m := by
  cases i with
  | drawChar x y ch => exact congrArg (plotAll true · m) (glyphPoints_congr_font h ..)
  | _ => rfl

/-- A command other than INIT keeps DEV (R23). -/
theorem dev_of_exec {i : Instr} {s t : State} (hi : i ≠ .init) (h : exec i s = .next t) :
    t.dev = s.dev := by
  by_contra hne
  exact hi ((exec_cases h).dev_changed hne).1

/-- Settles O39: the next FB is one function of the command, the font and the old FB. -/
theorem drawingIgnoresTheRest : Obligations.DrawingIgnoresTheRest := by
  intro i s s' t t' hinit _ hfb hfont h h'
  refine ⟨?_, dev_of_exec hinit h, dev_of_exec hinit h'⟩
  rw [fb_of_exec h, fb_of_exec h', hfb, drawnFb_congr_font hfont]

end Sys2Proof.Machine
end

section
/-! PROOFS. Steps and runs: what a run takes (R17, R194, R197), and that the words behind the ones it
takes make no difference to it (R51). -/

namespace Sys2Proof.Machine

open Sys2Proof.Statements

/-- With no word on the port a step does nothing (log entry 5). -/
theorem step_of_no_word {s : State} (hs : s.stream = []) : step s = .next s := by
  simp [step, fetch, hs, idle]

/-- Settles O34. -/
theorem stepRunsDecodedCommand : Obligations.StepRunsDecodedCommand :=
  ⟨fun _ _ _ _ => step_of_decode_ok, fun _ => step_of_no_word⟩

/-- A run of the waiting words takes them all, one code and one position each. -/
theorem runsTo_takes_all (ws : List CommandWord) {s : State} (hs : s.stream = ws) :
    ∃ t, runsTo ws.length s t ∧ t.stream = [] ∧
      t.completions.length = s.completions.length + ws.length ∧ t.index = s.index + ws.length := by
  induction ws generalizing s with
  | nil => exact ⟨s, runsTo_zero s, hs, rfl, rfl⟩
  | cons w rest ih =>
    obtain ⟨u, c, new, hstep, hu, -⟩ := step_completed hs
    obtain ⟨t, hrun, hstream, hcodes, hindex⟩ := ih hu.stream
    refine ⟨t, runsTo_succ hstep hrun, hstream, ?_, ?_⟩
    · rw [hcodes, hu.completions, List.length_append, List.length_singleton, List.length_cons,
        Nat.add_assoc, Nat.add_comm 1]
    · rw [hindex, hu.index, List.length_cons, Nat.add_assoc, Nat.add_comm 1]

/-- Settles O42. -/
theorem runTakesEveryWord : Obligations.RunTakesEveryWord := by
  intro s
  obtain ⟨t, hrun, hstream, hcodes, hindex⟩ := runsTo_takes_all s.stream rfl
  exact ⟨t, hrun, by rw [runOver, hstream]; rfl, hcodes, hindex⟩

/-! ### No command reads the waiting words -/

/-- Ending a command does not touch the waiting words. -/
theorem complete_withStream (c : CompletionCode) (s : State) (ws : List CommandWord) :
    complete c { s with stream := ws } = { complete c s with stream := ws } := rfl

theorem sendIgnoring_withStream (ps : List (List Byte)) (s : State) (ws : List CommandWord) :
    sendIgnoring ps { s with stream := ws } = { sendIgnoring ps s with stream := ws } := by
  rw [sendIgnoring_eq, sendIgnoring_eq]
  rfl

theorem sendUntilFail_withStream (ps : List (List Byte)) (s : State) (ws : List CommandWord) :
    sendUntilFail ps { s with stream := ws } =
      ((sendUntilFail ps s).1, { (sendUntilFail ps s).2 with stream := ws }) := by
  rcases all_ok_or_first_fail s ps.length with hok | ⟨n, hn, hok, hfail⟩
  · rw [sendUntilFail_allOk hok, sendUntilFail_allOk (s := { s with stream := ws }) hok]
  · have hp := List.getElem?_eq_getElem hn
    rw [sendUntilFail_fail hp hok hfail,
      sendUntilFail_fail (s := { s with stream := ws }) hp hok hfail]

theorem initDevice_withStream (s : State) (ws : List CommandWord) :
    initDevice { s with stream := ws } = { initDevice s with stream := ws } := by
  rcases initDevice_cases s with ⟨hd, -⟩ | ⟨hd, -⟩ | ⟨hd, h0, -⟩ | ⟨hd, h0, -⟩
  · rw [initDevice_of_initialized hd, initDevice_of_initialized (s := { s with stream := ws }) hd,
      complete_withStream]
  · rw [initDevice_of_failed hd, initDevice_of_failed (s := { s with stream := ws }) hd,
      complete_withStream]
  · rw [initDevice_of_probe_fail hd h0,
      initDevice_of_probe_fail (s := { s with stream := ws }) hd h0]
    rfl
  · rw [initDevice_of_probe_ok hd h0, initDevice_of_probe_ok (s := { s with stream := ws }) hd h0]
    rfl

theorem displayFrame_withStream (s : State) (ws : List CommandWord) :
    displayFrame { s with stream := ws } = { displayFrame s with stream := ws } := by
  rcases displayFrame_cases s with ⟨hd, heq⟩ | ⟨hd, heq⟩
  · rw [heq, displayFrame_of_not_initialized (s := { s with stream := ws }) hd,
      complete_withStream]
  · rw [heq, displayFrame_of_initialized (s := { s with stream := ws }) hd, flush, flush,
      sendUntilFail_withStream]
    rfl

/-- No command reads or writes the waiting words: with other words waiting it does the same and leaves
those waiting. CLEAR goes through its equation, which keeps its 1024 bytes folded. -/
theorem exec_withStream {i : Instr} {s t : State} (h : exec i s = .next t)
    (ws : List CommandWord) :
    exec i { s with stream := ws } = .next { t with stream := ws } := by
  cases i with
  | init => cases h; exact congrArg _ (initDevice_withStream s ws)
  | display => cases h; exact congrArg _ (displayFrame_withStream s ws)
  | clear =>
    rw [exec_clear, Host.Outcome.next.injEq] at h
    rw [exec_clear, ← h, ← complete_withStream]
  | _ => cases h; rfl

/-- A step that takes the first waiting word does the same with more words behind, and leaves them
waiting. -/
theorem step_withStream {s t : State} {w : CommandWord} {rest : List CommandWord}
    (hs : s.stream = w :: rest) (h : step s = .next t) (more : List CommandWord) :
    step { s with stream := w :: more } = .next { t with stream := more } := by
  cases hd : decode w with
  | ok i =>
    rw [step_of_decode_ok hs hd] at h
    rw [step_of_decode_ok rfl hd]
    exact exec_withStream h more
  | error e =>
    rw [step_of_decode_error hs hd, Host.Outcome.next.injEq] at h
    rw [step_of_decode_error rfl hd, ← h]
    rfl

theorem runsTo_withMore (ws : List CommandWord) {s t : State} (hs : s.stream = ws)
    (h : runsTo ws.length s t) (more : List CommandWord) :
    runsTo ws.length { s with stream := ws ++ more } { t with stream := more } := by
  induction ws generalizing s with
  | nil =>
    cases h
    exact runsTo_zero _
  | cons w rest ih =>
    obtain ⟨u, c, new, hstep, hu, -⟩ := step_completed hs
    have hrun : runsTo rest.length u t := (core_run_succ core _ hstep).symm.trans h
    exact runsTo_succ (step_withStream hs hstep _) (ih hu.stream hrun)

/-- Settles O43. -/
theorem laterWordsMakeNoDifference : Obligations.LaterWordsMakeNoDifference := fun s _ more h =>
  runsTo_withMore s.stream rfl h more

end Sys2Proof.Machine
end

section
/-! PROOFS. The layout of the framebuffer as a bijection (R41, R42), and the laws of `Plot` (R45). -/

namespace Sys2Proof.Machine

/-! ### The layout -/

/-- R42 undoes R41. -/
theorem columnOf_byteIndex {x : Nat} (hx : x < 128) (y : Nat) : columnOf (byteIndex x y) = x := by
  rw [byteIndex_eq, columnOf, Config.width]
  omega

theorem rowOf_byteIndex {x : Nat} (hx : x < 128) (y : Nat) :
    rowOf (byteIndex x y) (bitIndex y) = y := by
  rw [byteIndex_eq, bitIndex_eq, rowOf, Config.width]
  omega

/-- R41 undoes R42. -/
theorem byteIndex_columnOf_rowOf (i : Nat) {b : Nat} (hb : b < 8) :
    byteIndex (columnOf i) (rowOf i b) = i := by
  rw [byteIndex_eq, columnOf, rowOf, Config.width]
  omega

theorem bitIndex_rowOf (i : Nat) {b : Nat} (hb : b < 8) : bitIndex (rowOf i b) = b := by
  rw [bitIndex_eq, rowOf, Config.width]
  omega

theorem columnOf_lt (i : Nat) : columnOf i < 128 := Nat.mod_lt _ (by decide)

theorem rowOf_lt {i b : Nat} (hi : i < 1024) (hb : b < 8) : rowOf i b < 64 := by
  rw [rowOf, Config.width]
  omega

/-- Settles O12. -/
theorem pixelMappingIsBijection : Obligations.PixelMappingIsBijection :=
  ⟨fun x y hx hy => ⟨byteIndex_eq x y, byteIndex_lt hx hy, bitIndex_eq y, bitIndex_lt y,
      columnOf_byteIndex hx y, rowOf_byteIndex hx y⟩,
    fun i _ hi hb => ⟨rfl, rfl, columnOf_lt i, rowOf_lt hi hb, byteIndex_columnOf_rowOf i hb,
      bitIndex_rowOf i hb⟩⟩

/-! ### The laws of `Plot` -/

/-- A canonical storage is a plotted one when it has the plotted pixel's colour there and agrees with
the old one on every other on-screen pixel. -/
theorem eq_plot_of_pixel {m m' : Memory} (hm : Memory.wf m = true) (hm' : Memory.wf m' = true)
    {x y : Nat} {c : Bool}
    (h : ∀ px py, px < 128 → py < 64 →
      pixel m' px py = if px = x ∧ py = y then c else pixel m px py) : m' = plot m x y c :=
  memory_ext_pixel hm' (wf_plot hm x y c) fun px py hx hy => by
    rw [h px py hx hy, pixel_plot hm x y c hx hy]

section Plots
variable {m : Memory} (hm : Memory.wf m = true) (x y x' y' : Nat) (c d : Bool)
include hm

/-- What two plots do to each on-screen pixel: the later one counts. -/
theorem pixel_plot_plot {px py : Nat} (hx : px < 128) (hy : py < 64) :
    pixel (plot (plot m x y c) x' y' d) px py =
      if px = x' ∧ py = y' then d else if px = x ∧ py = y then c else pixel m px py := by
  rw [pixel_plot (wf_plot hm x y c) x' y' d hx hy, pixel_plot hm x y c hx hy]

/-- The last of two plots of one pixel counts. -/
theorem plot_plot_same : plot (plot m x y c) x y d = plot m x y d := by
  refine eq_plot_of_pixel hm (wf_plot (wf_plot hm ..) ..) fun px py hx hy => ?_
  rw [pixel_plot_plot hm x y x y c d hx hy]
  split_ifs <;> rfl

/-- Two plots commute when they are of different pixels or in one colour. -/
theorem plot_comm (h : (x, y) ≠ (x', y') ∨ c = d) :
    plot (plot m x y c) x' y' d = plot (plot m x' y' d) x y c := by
  refine eq_plot_of_pixel (wf_plot hm ..) (wf_plot (wf_plot hm ..) ..) fun px py hx hy => ?_
  rw [pixel_plot_plot hm x y x' y' c d hx hy, pixel_plot hm x' y' d hx hy]
  split_ifs with hlater hearlier
  · obtain ⟨rfl, rfl⟩ := hlater
    obtain ⟨rfl, rfl⟩ := hearlier
    exact (h.resolve_left (· rfl)).symm
  all_goals rfl

/-- Setting and then clearing a pixel that was clear restores the storage. -/
theorem plot_clear_plot_set (h : pixel m x y = false) :
    plot (plot m x y true) x y false = m := by
  rw [plot_plot_same hm]
  refine (eq_plot_of_pixel hm hm fun px py _ _ => ?_).symm
  split_ifs with hpixel
  · rw [hpixel.1, hpixel.2, h]
  · rfl

end Plots

/-- Settles O14: one colour commutes by `plot_comm` also where the pixels are one. -/
theorem plotLaws : Obligations.PlotLaws := fun _ x y x' y' c d hm =>
  ⟨plot_plot_same hm x y c c, plot_comm hm x y x' y' c c (.inr rfl),
    fun hne => plot_comm hm x y x' y' c d (.inl hne), plot_plot_same hm x y c d,
    plot_clear_plot_set hm x y⟩

end Sys2Proof.Machine
end

section
/-! PROOFS. How many pixels a rectangle and its border have (R100, R101). -/

namespace Sys2Proof.Machine

section Counts
variable {x y w h : Nat}

theorem toFinset_rectPoints :
    (rectPoints x y w h).toFinset = Finset.Ico x (x + w) ×ˢ Finset.Ico y (y + h) := by
  ext ⟨px, py⟩
  rw [List.mem_toFinset, mem_rectPoints, Finset.mem_product, Finset.mem_Ico, Finset.mem_Ico]

theorem card_rectPoints : (rectPoints x y w h).toFinset.card = w * h := by
  rw [toFinset_rectPoints, Finset.card_product, Nat.card_Ico, Nat.card_Ico,
    Nat.add_sub_cancel_left, Nat.add_sub_cancel_left]

/-- Clipping a rectangle clips its two sides (R43). -/
theorem filter_onScreen_rectPoints :
    ((rectPoints x y w h).toFinset.filter fun p => p.1 < 128 ∧ p.2 < 64) =
      Finset.Ico x (min (x + w) 128) ×ˢ Finset.Ico y (min (y + h) 64) := by
  ext ⟨px, py⟩
  simp only [toFinset_rectPoints, Finset.mem_filter, Finset.mem_product, Finset.mem_Ico, lt_min_iff]
  tauto

/-- The border is the rectangle without its interior. -/
theorem toFinset_borderPoints :
    (borderPoints x y w h).toFinset =
      (rectPoints x y w h).toFinset \ (rectPoints (x + 1) (y + 1) (w - 2) (h - 2)).toFinset := by
  ext ⟨px, py⟩
  rw [Finset.mem_sdiff, List.mem_toFinset, List.mem_toFinset, List.mem_toFinset,
    mem_borderPoints, mem_rectPoints, mem_rectPoints]
  omega

theorem interior_subset_rectPoints :
    (rectPoints (x + 1) (y + 1) (w - 2) (h - 2)).toFinset ⊆ (rectPoints x y w h).toFinset := by
  rintro ⟨px, py⟩
  rw [List.mem_toFinset, List.mem_toFinset, mem_rectPoints, mem_rectPoints]
  omega

theorem card_borderPoints_eq_sub :
    (borderPoints x y w h).toFinset.card = w * h - (w - 2) * (h - 2) := by
  rw [toFinset_borderPoints, Finset.card_sdiff_of_subset interior_subset_rectPoints,
    card_rectPoints, card_rectPoints]

end Counts

/-- The rectangle less its interior, side by side. -/
theorem rect_sub_interior (w h : Nat) :
    w * h - (w - 2) * (h - 2) =
      if w = 0 ∨ h = 0 then 0 else if w = 1 then h else if h = 1 then w
      else 2 * w + 2 * h - 4 := by
  match w, h with
  | 0, h => simp
  | 1, h => simp +contextual
  | w + 2, 0 => simp
  | w + 2, 1 => simp
  | w + 2, h + 2 =>
    have hprod : (w + 2) * (h + 2) = w * h + (2 * w + 2 * h + 4) := by ring
    simp only [Nat.add_sub_cancel, hprod, Nat.add_sub_cancel_left]
    rw [if_neg (by omega), if_neg (by omega), if_neg (by omega)]
    omega

/-- Settles O25. -/
theorem rectanglePixelCounts : Obligations.RectanglePixelCounts := by
  intro x y w h
  refine ⟨card_rectPoints, ?clipped, card_borderPoints_eq_sub.trans (rect_sub_interior w h),
    fun p hp => (mem_borderPoints.1 hp).1⟩
  case clipped =>
    rw [filter_onScreen_rectPoints, Finset.card_product, Nat.card_Ico, Nat.card_Ico]

end Sys2Proof.Machine
end

section
/-! PROOFS. A legal font (R110 to R112) and the properties of DRAW_CHAR that follow from it. -/

namespace Sys2Proof.Machine

open Sys2Proof.Statements

/-! ### The constraints on a legal record -/

theorem params_wf_iff {p : Params} :
    p.wf = true ↔ p.fontSized = true ∧ p.spaceBlank = true ∧ p.bit7Clear = true ∧
      p.initSized = true := by
  simp only [Params.wf, Bool.and_eq_true, and_assoc]

/-- R112: no glyph of a legal font has an eighth row. -/
theorem glyphBit_seven {p : Params} (hp : p.wf = true) (ch : Byte) (i : Nat) :
    glyphBit p ch i 7 = false := by
  obtain ⟨-, -, hbit7, -⟩ := params_wf_iff.1 hp
  rw [glyphBit_eq, fontByte, List.getD_eq_getElem?_getD]
  cases hb : p.font[glyphIndex ch * Config.glyphCols + i]? with
  | none => rfl
  | some b =>
    have := List.all_eq_true.1 hbit7 b (List.mem_of_getElem? hb)
    simpa using this

/-- R111: the columns of glyph 0 of a legal font are blank. -/
theorem fontByte_space {p : Params} (hp : p.wf = true) {i : Nat} (hi : i < 5) :
    fontByte p 0 i = 0#8 := by
  obtain ⟨-, hblank, -, -⟩ := params_wf_iff.1 hp
  rw [fontByte, Nat.zero_mul, Nat.zero_add, List.getD_eq_getElem?_getD]
  cases hb : p.font[i]? with
  | none => rfl
  | some b =>
    have hmem : b ∈ p.font.take Config.glyphCols :=
      List.mem_of_getElem? ((List.getElem?_take_of_lt hi).trans hb)
    simpa using List.all_eq_true.1 hblank b hmem

/-- R113: the codes that select the space glyph. -/
theorem glyphIndex_space {ch : Byte} (h : ch.toNat ≤ 32 ∨ 90 < ch.toNat) : glyphIndex ch = 0 := by
  rw [glyphIndex, Config.fontFirst, Config.fontLast]
  split_ifs <;> omega

/-! ### The points of a character -/

/-- With a legal font a character lies in 5 columns and 7 rows. -/
theorem mem_glyphPoints_of_wf {p : Params} (hp : p.wf = true) {ch : Byte} {x y px py : Nat} :
    (px, py) ∈ glyphPoints p x y ch ↔ ∃ i j, i < 5 ∧ j < 7 ∧ glyphBit p ch i j = true ∧
      px = x + i ∧ py = y + j := by
  rw [mem_glyphPoints]
  constructor
  · rintro ⟨i, j, hi, hj, hbit, hpx, hpy⟩
    have hj7 : j ≠ 7 := by
      rintro rfl
      simp [glyphBit_seven hp] at hbit
    exact ⟨i, j, hi, by omega, hbit, hpx, hpy⟩
  · rintro ⟨i, j, hi, hj, h⟩
    exact ⟨i, j, hi, by omega, h⟩

/-- A point of a glyph's column is a point of the character exactly when its bit is set. -/
theorem mem_glyphPoints_offset {p : Params} {ch : Byte} {x y i j : Nat} (hi : i < 5) (hj : j < 8) :
    (x + i, y + j) ∈ glyphPoints p x y ch ↔ glyphBit p ch i j = true := by
  rw [mem_glyphPoints]
  constructor
  · rintro ⟨i', j', -, -, hbit, hx, hy⟩
    rwa [Nat.add_left_cancel hx, Nat.add_left_cancel hy]
  · intro hbit
    exact ⟨i, j, hi, hj, hbit, rfl, rfl⟩

/-- A character that selects the space glyph of a legal font has no point. -/
theorem glyphPoints_space {p : Params} (hp : p.wf = true) {ch : Byte}
    (h : ch.toNat ≤ 32 ∨ 90 < ch.toNat) (x y : Nat) : glyphPoints p x y ch = [] := by
  refine List.eq_nil_iff_forall_not_mem.2 fun ⟨px, py⟩ hmem => ?_
  obtain ⟨i, j, hi, -, hbit, -⟩ := mem_glyphPoints.1 hmem
  rw [glyphBit_eq, glyphIndex_space h, fontByte_space hp hi] at hbit
  simp at hbit

/-! ### The pixels and bytes of the character's storage -/

section Storage
variable {m : Memory} (hm : Memory.wf m = true) {p : Params} {ch : Byte} {x y : Nat}
include hm

/-- Plots that set clear no pixel. -/
theorem pixel_plotAll_true_of_set (ps : List (Nat × Nat)) {px py : Nat} (hx : px < 128)
    (hy : py < 64) (hset : pixel m px py = true) : pixel (plotAll true ps m) px py = true := by
  rw [pixel_plotAll true ps hm hx hy, hset, ite_self]

/-- A legal font changes nothing outside its 5 columns and 7 rows. -/
theorem pixel_glyph_outside (hp : p.wf = true) {px py : Nat} (hx : px < 128) (hy : py < 64)
    (hout : px < x ∨ x + 4 < px ∨ py < y ∨ y + 6 < py) :
    pixel (plotAll true (glyphPoints p x y ch) m) px py = pixel m px py := by
  rw [pixel_plotAll _ _ hm hx hy, if_neg]
  rw [mem_glyphPoints_of_wf hp]
  rintro ⟨i, j, hi, hj, -, rfl, rfl⟩
  omega

/-- On a page boundary each column is OR-ed into the page: row `y + b` of column `x + i` is bit `b` of
the page's byte. -/
theorem read_glyph_aligned (halign : y % 8 = 0) (hy : y < 64) (hx : x + 4 < 128) {i : Nat}
    (hi : i < 5) :
    Memory.read (plotAll true (glyphPoints p x y ch) m) (byteIndex (x + i) y) =
      Memory.read m (byteIndex (x + i) y) ||| fontByte p (glyphIndex ch) i := by
  refine byte_ext fun b hb => ?_
  have hrow (m : Memory) :
      (Memory.read m (byteIndex (x + i) y)).getLsbD b = pixel m (x + i) (y + b) := by
    rw [pixel, byteIndex_eq, byteIndex_eq, bitIndex_eq, show (y + b) / 8 = y / 8 by omega,
      show (y + b) % 8 = b by omega]
  rw [BitVec.getLsbD_or, hrow, hrow, pixel_plotAll _ _ hm (by omega) (by omega), ← glyphBit_eq]
  simp only [mem_glyphPoints_offset hi hb]
  cases glyphBit p ch i b <;> simp

end Storage

/-- Settles O27. -/
theorem drawCharProperties : Obligations.DrawCharProperties := by
  intro s x y ch hm hp
  refine ⟨fun hspace => ?space, plotAll true (glyphPoints s.cfg x.toNat y.toNat ch) s.fb,
    exec_drawChar x y ch s, ?kept, ?outside, ?aligned⟩
  case space =>
    rw [exec_drawChar, glyphPoints_space hp hspace]
    rfl
  case kept =>
    intro px py hx hy hset
    rw [bitAt_eq_pixel] at hset ⊢
    exact pixel_plotAll_true_of_set hm _ hx hy hset
  case outside =>
    intro px py hx hy hout
    rw [bitAt_eq_pixel, bitAt_eq_pixel]
    exact pixel_glyph_outside hm hp hx hy hout
  case aligned =>
    intro halign hy hx i hi
    rw [← byteIndex_eq]
    exact read_glyph_aligned hm halign hy hx hi

end Sys2Proof.Machine
end

section
/-! PROOFS. The passes of the line: each follows from the one before by R90's two tests, and a line is
one point, goes along x, or is the mirror image of one that does. -/

namespace Sys2Proof.Machine

open Sys2Proof.Statements

/-- The spec's absolute delta. -/
theorem abs_sub_eq_absDelta (a b : Nat) : |(b : Int) - a| = absDelta a b :=
  (Int.natCast_natAbs _).symm

/-! ### One pass to the next -/

section Step
variable (x0 y0 x1 y1 : Nat) (c : LineCursor)

theorem lineStep_x :
    (lineStep x0 y0 x1 y1 c).x =
      c.x + if 2 * c.err > -(absDelta y0 y1 : Int) then stepSign x0 x1 else 0 := by
  simp only [lineStep, stepX, stepY]
  split_ifs <;> simp

theorem lineStep_y :
    (lineStep x0 y0 x1 y1 c).y =
      c.y + if 2 * c.err < (absDelta x0 x1 : Int) then stepSign y0 y1 else 0 := by
  simp only [lineStep, stepX, stepY]
  split_ifs <;> simp

theorem lineStep_err :
    (lineStep x0 y0 x1 y1 c).err =
      c.err - (if 2 * c.err > -(absDelta y0 y1 : Int) then (absDelta y0 y1 : Int) else 0) +
        (if 2 * c.err < (absDelta x0 x1 : Int) then (absDelta x0 x1 : Int) else 0) := by
  simp only [lineStep, stepX, stepY]
  split_ifs <;> simp

end Step

/-- Of two passes in a row the first is not at the endpoint, and the second is one step on. -/
theorem lineWalk_next {x0 y0 x1 y1 n k : Nat} {a c c' : LineCursor}
    (h : (lineWalk x0 y0 x1 y1 n a)[k]? = some c)
    (h' : (lineWalk x0 y0 x1 y1 n a)[k + 1]? = some c') :
    atEnd x1 y1 c = false ∧ c' = lineStep x0 y0 x1 y1 c := by
  induction n generalizing k a with
  | zero => cases h
  | succ n ih =>
    rw [lineWalk] at h h'
    cases hend : atEnd x1 y1 a with
    | true => simp [hend] at h'
    | false =>
      simp only [hend, Bool.false_eq_true, if_false, List.getElem?_cons_succ] at h h'
      cases k with
      | succ k => exact ih h h'
      | zero =>
        obtain rfl : a = c := by simpa using h
        refine ⟨hend, ?_⟩
        cases n with
        | zero => cases h'
        | succ n => simpa [lineWalk] using h'.symm

theorem atEnd_eq_false_iff {x1 y1 : Nat} {c : LineCursor} :
    atEnd x1 y1 c = false ↔ c.x ≠ x1 ∨ c.y ≠ y1 := by
  rw [atEnd, Bool.and_eq_false_iff, beq_eq_false_iff_ne, beq_eq_false_iff_ne]

/-- Settles O18: the passes are a walk by `lineStep`, whose fields are R90's two tests on one `e2`. -/
theorem lineWalkIsBresenham : Obligations.LineWalkIsBresenham := by
  intro x0 y0 x1 y1
  simp only [abs_sub_eq_absDelta]
  refine ⟨lineCursors_head? x0 y0 x1 y1, lineCursors_getLast? x0 y0 x1 y1,
    fun k c c' hc hc' => ?passes⟩
  case passes =>
    obtain ⟨hend, rfl⟩ := lineWalk_next hc hc'
    exact ⟨atEnd_eq_false_iff.1 hend, lineStep_x .., lineStep_y .., lineStep_err ..⟩

/-! ### One point, along x, or the mirror image -/

/-- What holds of every line of one point and of every line along x, and of a line when it holds of its
mirror image, holds of every line. -/
theorem line_cases {P : Nat → Nat → Nat → Nat → Prop} (point : ∀ x y, P x y x y)
    (alongX : ∀ {x0 y0 x1 y1}, 0 < absDelta x0 x1 → absDelta y0 y1 ≤ absDelta x0 x1 →
      P x0 y0 x1 y1)
    (mirror : ∀ {x0 y0 x1 y1}, P y0 x0 y1 x1 → P x0 y0 x1 y1) (x0 y0 x1 y1 : Nat) :
    P x0 y0 x1 y1 := by
  rcases Nat.lt_or_ge (absDelta x0 x1) (absDelta y0 y1) with hy | hx
  · exact mirror (alongX (Nat.zero_lt_of_lt hy) hy.le)
  · rcases Nat.eq_zero_or_pos (absDelta x0 x1) with hzero | hpos
    · obtain ⟨rfl, rfl⟩ : x0 = x1 ∧ y0 = y1 := by
        unfold absDelta at hzero hx
        omega
      exact point x0 y0
    · exact alongX hpos hx

theorem linePoints_swap (x0 y0 x1 y1 : Nat) :
    linePoints y0 x0 y1 x1 = (linePoints x0 y0 x1 y1).map Prod.swap := by
  rw [linePoints, lineCursors_swap, linePoints, List.map_map, List.map_map]
  rfl

/-- A line along x has its pass `k` after `k` steps. -/
theorem lineCursors_eq_map_range {x0 y0 x1 y1 : Nat} (hdx : 0 < absDelta x0 x1)
    (hdy : absDelta y0 y1 ≤ absDelta x0 x1) :
    lineCursors x0 y0 x1 y1 = (List.range (absDelta x0 x1 + 1)).map fun k =>
      (lineStep x0 y0 x1 y1)^[k] (lineStart x0 y0 x1 y1) :=
  (lineCursors_eq_iterate_of_alongX hdx hdy).trans (List.range_map_iterate ..).symm

end Sys2Proof.Machine
end

section
/-! PROOFS. The line along x as rounding: in column `k` it is `k * dy / dx` rows from its start, rounded
to the nearest row, and halves are rounded towards the start. Seen from the other endpoint halves are
rounded the other way; a tie of R93 is a half. -/

namespace Sys2Proof.Machine

/-! ### Rounding -/

/-- `j` is `k * dy / dx` rounded to the nearest number, halves down. -/
structure RoundsDown (dx dy k j : Nat) : Prop where
  lower : 2 * (k * dy) ≤ 2 * (j * dx) + dx
  upper : 2 * (j * dx) < 2 * (k * dy) + dx

/-- `j` is `k * dy / dx` rounded to the nearest number, halves up. -/
structure RoundsUp (dx dy k j : Nat) : Prop where
  lower : 2 * (k * dy) < 2 * (j * dx) + dx
  upper : 2 * (j * dx) ≤ 2 * (k * dy) + dx

/-- `k * dy / dx` is `j` and a half. -/
def IsHalf (dx dy k j : Nat) : Prop := 2 * (k * dy) = 2 * (j * dx) + dx

section Rounding
variable {dx dy k j j' : Nat}

/-- Multiples of `dx` less than `dx` apart are equal. -/
theorem le_of_mul_lt_mul_add (dx : Nat) {j j' : Nat} (h : j * dx < j' * dx + dx) : j ≤ j' := by
  rw [← Nat.add_one_mul] at h
  exact Nat.lt_succ_iff.1 (Nat.lt_of_mul_lt_mul_right h)

theorem RoundsDown.unique (h : RoundsDown dx dy k j) (h' : RoundsDown dx dy k j') : j = j' := by
  obtain ⟨hlower, hupper⟩ := h
  obtain ⟨hlower', hupper'⟩ := h'
  exact Nat.le_antisymm (le_of_mul_lt_mul_add dx (by omega)) (le_of_mul_lt_mul_add dx (by omega))

theorem RoundsDown.le (h : RoundsDown dx dy k j) (hk : k ≤ dx) : j ≤ dy := by
  have hkdy : k * dy ≤ dy * dx := Nat.mul_comm dx dy ▸ Nat.mul_le_mul_right dy hk
  have := h.upper
  exact le_of_mul_lt_mul_add dx (by omega)

/-- Counted from the other end, halves are rounded the other way. -/
theorem roundsDown_sub_iff (hk : k ≤ dx) (hj : j ≤ dy) :
    RoundsDown dx dy (dx - k) (dy - j) ↔ RoundsUp dx dy k j := by
  have hx : (dx - k) * dy + k * dy = dx * dy := by rw [← Nat.add_mul, Nat.sub_add_cancel hk]
  have hy : (dy - j) * dx + j * dx = dx * dy := by
    rw [← Nat.add_mul, Nat.sub_add_cancel hj, Nat.mul_comm]
  constructor
  · rintro ⟨hlower, hupper⟩
    exact ⟨by omega, by omega⟩
  · rintro ⟨hlower, hupper⟩
    exact ⟨by omega, by omega⟩

theorem IsHalf.roundsDown (hdx : 0 < dx) (h : IsHalf dx dy k j) : RoundsDown dx dy k j := by
  unfold IsHalf at h
  exact ⟨by omega, by omega⟩

theorem IsHalf.not_roundsUp (h : IsHalf dx dy k j) : ¬ RoundsUp dx dy k j := fun hup =>
  hup.lower.ne h

/-- Where there is no half the two roundings agree. -/
theorem roundsDown_iff_roundsUp (hdx : 0 < dx) (h : ∀ j, ¬ IsHalf dx dy k j) :
    RoundsDown dx dy k j ↔ RoundsUp dx dy k j := by
  constructor
  · rintro ⟨hlower, hupper⟩
    exact ⟨lt_of_le_of_ne hlower (h j), hupper.le⟩
  · rintro ⟨hlower, hupper⟩
    refine ⟨hlower.le, lt_of_le_of_ne hupper fun heq => ?_⟩
    cases j with
    | zero => omega
    | succ j =>
      rw [Nat.add_one_mul j] at heq
      exact h j (by unfold IsHalf; omega)

/-- On an axis and on a diagonal there is no half. -/
theorem not_isHalf_of_axis_or_diagonal (hdx : 0 < dx) (h : dy = 0 ∨ dy = dx) :
    ¬ IsHalf dx dy k j := by
  unfold IsHalf
  rcases h with rfl | rfl
  · omega
  · intro heq
    have hodd : 2 * k = 2 * j + 1 := by
      refine Nat.eq_of_mul_eq_mul_right hdx ?_
      rw [Nat.add_mul, Nat.mul_assoc, Nat.mul_assoc, Nat.one_mul, heq]
    omega

/-- In the column before a half the row is the one the half is counted from. -/
theorem IsHalf.roundsDown_before (hdx : 0 < dx) (hdy : dy ≤ dx) (h : IsHalf dx dy (k + 1) j)
    (h' : RoundsDown dx dy k j') : j' = j := by
  have hhalf := h
  unfold IsHalf at hhalf
  rw [Nat.add_one_mul k] at hhalf
  obtain ⟨hlower, hupper⟩ := h'
  have hlt : dy < dx := lt_of_le_of_ne hdy fun heq =>
    not_isHalf_of_axis_or_diagonal hdx (.inr heq) h
  exact Nat.le_antisymm (le_of_mul_lt_mul_add dx (by omega)) (le_of_mul_lt_mul_add dx (by omega))

end Rounding

/-! ### The walk rounds -/

section Walk
variable {x0 y0 x1 y1 k j : Nat} {c : LineCursor}

/-- The error in terms of the two products that rounding compares. -/
theorem AlongX.err_eq_products (h : AlongX x0 y0 x1 y1 k j c) :
    c.err = ((j * absDelta x0 x1 : Nat) : Int) + absDelta x0 x1 -
      ((k * absDelta y0 y1 : Nat) : Int) - absDelta y0 y1 := by
  rw [h.err_eq]
  push_cast
  ring

/-- A cursor along x is in the row that rounding down gives its column, when it has been so one step
before. -/
theorem AlongX.roundsDown_next {j' : Nat} (hdy : absDelta y0 y1 ≤ absDelta x0 x1)
    (h : AlongX x0 y0 x1 y1 k j c)
    (h' : AlongX x0 y0 x1 y1 (k + 1) j' (lineStep x0 y0 x1 y1 c))
    (hround : RoundsDown (absDelta x0 x1) (absDelta y0 y1) k j) :
    RoundsDown (absDelta x0 x1) (absDelta y0 y1) (k + 1) j' := by
  have herr := h.err_eq_products
  have herr' := h'.err_eq_products
  have hupper := h'.upper
  have hlower := hround.lower
  rw [lineStep_err, if_pos h.lower] at herr' hupper
  rw [Nat.add_one_mul k] at herr'
  refine ⟨?_, ?_⟩ <;> rw [Nat.add_one_mul k] <;> split_ifs at herr' hupper <;> omega

/-- The walk along x: after `k` steps, in the row that rounding down gives column `k`. -/
theorem exists_alongX_roundsDown (hdx : 0 < absDelta x0 x1)
    (hdy : absDelta y0 y1 ≤ absDelta x0 x1) (k : Nat) :
    ∃ j, AlongX x0 y0 x1 y1 k j ((lineStep x0 y0 x1 y1)^[k] (lineStart x0 y0 x1 y1)) ∧
      RoundsDown (absDelta x0 x1) (absDelta y0 y1) k j := by
  induction k with
  | zero => exact ⟨0, alongX_lineStart hdx hdy, by omega, by omega⟩
  | succ k ih =>
    obtain ⟨j, halong, hround⟩ := ih
    rw [Function.iterate_succ_apply']
    obtain ⟨j', halong'⟩ := halong.next hdy
    exact ⟨j', halong', halong.roundsDown_next hdy halong' hround⟩

/-- A walk of at most the distance stays between its ends. -/
theorem walk_between {a b n : Nat} (h : n ≤ absDelta a b) :
    (min a b : Int) ≤ a + n * stepSign a b ∧ a + n * stepSign a b ≤ (max a b : Int) := by
  unfold absDelta at h
  unfold stepSign
  split <;> omega

/-- A walk from the far end is a walk from the near one, of the rest of the distance. -/
theorem walk_back {a b n : Nat} (h : n ≤ absDelta a b) :
    (b : Int) + n * stepSign b a = a + (absDelta a b - n : Nat) * stepSign a b := by
  unfold absDelta at h ⊢
  unfold stepSign
  split_ifs <;> omega

end Walk

end Sys2Proof.Machine
end

section
/-! PROOFS. The number of the line's passes, their bounds (R91), and DRAW_LINE (R90). -/

namespace Sys2Proof.Machine

open Sys2Proof.Statements

/-! ### The number of passes -/

theorem length_lineCursors (x0 y0 x1 y1 : Nat) :
    (lineCursors x0 y0 x1 y1).length = max (absDelta x0 x1) (absDelta y0 y1) + 1 := by
  induction x0, y0, x1, y1 using line_cases with
  | point x y => simp [lineCursors_self, absDelta]
  | alongX hdx hdy =>
    rw [lineCursors_eq_map_range hdx hdy, List.length_map, List.length_range, max_eq_left hdy]
  | mirror ih => rwa [lineCursors_swap, List.length_map, max_comm] at ih

theorem length_linePoints (x0 y0 x1 y1 : Nat) :
    (linePoints x0 y0 x1 y1).length = max (absDelta x0 x1) (absDelta y0 y1) + 1 := by
  rw [linePoints, List.length_map, length_lineCursors]

/-! ### The endpoints' box and the error's bounds -/

/-- A pass of a line along x is after some `k` steps, in the row that rounding down gives. -/
theorem exists_alongX_of_mem_lineCursors {x0 y0 x1 y1 : Nat} (hdx : 0 < absDelta x0 x1)
    (hdy : absDelta y0 y1 ≤ absDelta x0 x1) {c : LineCursor} (hc : c ∈ lineCursors x0 y0 x1 y1) :
    ∃ k j, k ≤ absDelta x0 x1 ∧ AlongX x0 y0 x1 y1 k j c ∧
      RoundsDown (absDelta x0 x1) (absDelta y0 y1) k j := by
  rw [lineCursors_eq_map_range hdx hdy] at hc
  obtain ⟨k, hk, rfl⟩ := List.mem_map.1 hc
  obtain ⟨j, hj⟩ := exists_alongX_roundsDown hdx hdy k
  exact ⟨k, j, Nat.lt_succ_iff.1 (List.mem_range.1 hk), hj⟩

/-- The cursor is in the box of the endpoints. -/
structure InBox (x0 y0 x1 y1 : Nat) (c : LineCursor) : Prop where
  x_between : (min x0 x1 : Int) ≤ c.x ∧ c.x ≤ (max x0 x1 : Int)
  y_between : (min y0 y1 : Int) ≤ c.y ∧ c.y ≤ (max y0 y1 : Int)

theorem mem_lineCursors_swap {x0 y0 x1 y1 : Nat} {c : LineCursor}
    (hc : c ∈ lineCursors x0 y0 x1 y1) : c.swap ∈ lineCursors y0 x0 y1 x1 := by
  rw [lineCursors_swap]
  exact List.mem_map_of_mem hc

/-- A line never leaves the box of its endpoints (R91). -/
theorem inBox_of_mem_lineCursors (x0 y0 x1 y1 : Nat) :
    ∀ c ∈ lineCursors x0 y0 x1 y1, InBox x0 y0 x1 y1 c := by
  induction x0, y0, x1, y1 using line_cases with
  | point x y =>
    intro c hc
    rw [lineCursors_self, List.mem_singleton] at hc
    subst hc
    exact ⟨by simp [lineStart], by simp [lineStart]⟩
  | alongX hdx hdy =>
    intro c hc
    obtain ⟨k, j, hk, halong, hround⟩ := exists_alongX_of_mem_lineCursors hdx hdy hc
    exact ⟨halong.x_eq ▸ walk_between hk, halong.y_eq ▸ walk_between (hround.le hk)⟩
  | mirror ih =>
    intro c hc
    obtain ⟨hx, hy⟩ := ih _ (mem_lineCursors_swap hc)
    exact ⟨hy, hx⟩

/-- The error stays within one and a half deltas (R91). -/
theorem err_bounds_of_mem_lineCursors (x0 y0 x1 y1 : Nat) :
    ∀ c ∈ lineCursors x0 y0 x1 y1, (x0, y0) ≠ (x1, y1) →
      -3 * (absDelta y0 y1 : Int) < 2 * c.err ∧ 2 * c.err < 3 * (absDelta x0 x1 : Int) := by
  induction x0, y0, x1, y1 using line_cases with
  | point x y => exact fun c _ hne => absurd rfl hne
  | alongX hdx hdy =>
    intro c hc _
    obtain ⟨k, j, -, halong, -⟩ := exists_alongX_of_mem_lineCursors hdx hdy hc
    have hlower := halong.lower
    have hupper := halong.upper
    omega
  | mirror ih =>
    intro c hc hne
    have hswap := ih _ (mem_lineCursors_swap hc) fun heq => hne (congrArg Prod.swap heq)
    simp only [LineCursor.swap] at hswap
    omega

/-! ### No point twice -/

/-- Two passes of a line along x are in different columns. -/
theorem nodup_linePoints_of_alongX {x0 y0 x1 y1 : Nat} (hdx : 0 < absDelta x0 x1)
    (hdy : absDelta y0 y1 ≤ absDelta x0 x1) : (linePoints x0 y0 x1 y1).Nodup := by
  have hcolumn (k : Nat) (hk : k ∈ List.range (absDelta x0 x1 + 1)) :
      ((((lineStep x0 y0 x1 y1)^[k] (lineStart x0 y0 x1 y1)).x.toNat : Nat) : Int) =
        x0 + k * stepSign x0 x1 := by
    obtain ⟨j, halong, -⟩ := exists_alongX_roundsDown hdx hdy k
    have hbox := walk_between (Nat.lt_succ_iff.1 (List.mem_range.1 hk))
    rw [halong.x_eq]
    omega
  rw [linePoints, lineCursors_eq_map_range hdx hdy, List.map_map]
  refine List.nodup_range.map_on fun k hk k' hk' heq => ?_
  have hx := congrArg (Nat.cast : Nat → Int) (congrArg Prod.fst heq)
  dsimp only [Function.comp_apply] at hx
  rw [hcolumn k hk, hcolumn k' hk'] at hx
  exact_mod_cast mul_stepSign_inj (add_left_cancel hx)

theorem nodup_linePoints (x0 y0 x1 y1 : Nat) : (linePoints x0 y0 x1 y1).Nodup := by
  induction x0, y0, x1, y1 using line_cases with
  | point x y => rw [linePoints_self]; exact List.nodup_singleton _
  | alongX hdx hdy => exact nodup_linePoints_of_alongX hdx hdy
  | mirror ih =>
    rw [linePoints_swap]
    exact ih.map Prod.swap_injective

/-- Settles O19. -/
theorem lineStaysInBounds : Obligations.LineStaysInBounds := by
  intro x0 y0 x1 y1
  simp only [abs_sub_eq_absDelta]
  refine ⟨length_lineCursors x0 y0 x1 y1, nodup_linePoints x0 y0 x1 y1, fun c hc => ?passes⟩
  case passes =>
    obtain ⟨⟨hx, hx'⟩, hy, hy'⟩ := inBox_of_mem_lineCursors x0 y0 x1 y1 c hc
    push_cast
    exact ⟨hx, hx', hy, hy', err_bounds_of_mem_lineCursors x0 y0 x1 y1 c hc⟩

/-! ### DRAW_LINE -/

/-- No coordinate of a pass is negative, so the points plotted are the passes' own. -/
theorem mem_linePoints {x0 y0 x1 y1 px py : Nat} :
    (px, py) ∈ linePoints x0 y0 x1 y1 ↔ ∃ c ∈ lineCursors x0 y0 x1 y1, c.x = px ∧ c.y = py := by
  rw [linePoints, List.mem_map]
  refine exists_congr fun c => and_congr_right fun hc => ?_
  obtain ⟨⟨hx, -⟩, hy, -⟩ := inBox_of_mem_lineCursors x0 y0 x1 y1 c hc
  rw [Prod.mk.injEq]
  omega

theorem exec_drawLine (x0 y0 x1 y1 k : Byte) (s : State) :
    exec (.drawLine x0 y0 x1 y1 k) s =
      .next (draw (colour k) (linePoints x0.toNat y0.toNat x1.toNat y1.toNat) s) := rfl

/-- Settles O17: DRAW_LINE draws the points of its passes. -/
theorem drawLinePlotsItsWalk : Obligations.DrawLinePlotsItsWalk :=
  ⟨fun _ => decode_drawLine, fun s x0 y0 x1 y1 k hm =>
    draws_of_exec_eq_draw hm (exec_drawLine x0 y0 x1 y1 k s) fun _ _ _ _ => mem_linePoints⟩

end Sys2Proof.Machine
end

section
/-! PROOFS. The line from its two ends (R93): the two directions round halves in opposite ways, so they
plot the same points exactly when there is no half, and a half is a tie of some pass. -/

namespace Sys2Proof.Machine

open Sys2Proof.Statements

/-- The line and the line with its endpoints exchanged plot the same points. -/
def LineSymmetric (x0 y0 x1 y1 : Nat) : Prop :=
  ∀ p, p ∈ linePoints x0 y0 x1 y1 ↔ p ∈ linePoints x1 y1 x0 y0

/-! ### Points by their distance from the first endpoint -/

/-- `p` is `k` columns and `j` rows from the first endpoint towards the second. -/
structure AtOffset (x0 y0 x1 y1 k j : Nat) (p : Nat × Nat) : Prop where
  x_le : k ≤ absDelta x0 x1
  y_le : j ≤ absDelta y0 y1
  x_eq : (p.1 : Int) = x0 + k * stepSign x0 x1
  y_eq : (p.2 : Int) = y0 + j * stepSign y0 y1

theorem absDelta_comm (a b : Nat) : absDelta a b = absDelta b a := by
  unfold absDelta
  omega

section Offset
variable {x0 y0 x1 y1 k j k' j' : Nat} {p : Nat × Nat}

theorem AtOffset.unique (h : AtOffset x0 y0 x1 y1 k j p) (h' : AtOffset x0 y0 x1 y1 k' j' p) :
    k = k' ∧ j = j' := by
  have hx := add_left_cancel (h.x_eq.symm.trans h'.x_eq)
  have hy := add_left_cancel (h.y_eq.symm.trans h'.y_eq)
  exact ⟨by exact_mod_cast mul_stepSign_inj hx, by exact_mod_cast mul_stepSign_inj hy⟩

theorem exists_atOffset (hk : k ≤ absDelta x0 x1) (hj : j ≤ absDelta y0 y1) :
    ∃ p, AtOffset x0 y0 x1 y1 k j p := by
  have hx := (walk_between hk).1
  have hy := (walk_between hj).1
  exact ⟨(_, _), hk, hj, Int.toNat_of_nonneg (by omega), Int.toNat_of_nonneg (by omega)⟩

/-- The same point from the other end. -/
theorem AtOffset.reverse (h : AtOffset x0 y0 x1 y1 k j p) :
    AtOffset x1 y1 x0 y0 (absDelta x0 x1 - k) (absDelta y0 y1 - j) p where
  x_le := by rw [absDelta_comm x1]; exact Nat.sub_le ..
  y_le := by rw [absDelta_comm y1]; exact Nat.sub_le ..
  x_eq := by
    have hback := walk_back (a := x1) (b := x0) (absDelta_comm x0 x1 ▸ h.x_le)
    rw [absDelta_comm x1] at hback
    exact h.x_eq.trans hback
  y_eq := by
    have hback := walk_back (a := y1) (b := y0) (absDelta_comm y0 y1 ▸ h.y_le)
    rw [absDelta_comm y1] at hback
    exact h.y_eq.trans hback

/-! ### The points of a line along x, from either end -/

/-- A line along x plots in each column the point in the row that rounding down gives. -/
theorem mem_linePoints_alongX (hdx : 0 < absDelta x0 x1) (hdy : absDelta y0 y1 ≤ absDelta x0 x1) :
    p ∈ linePoints x0 y0 x1 y1 ↔ ∃ k j, AtOffset x0 y0 x1 y1 k j p ∧
      RoundsDown (absDelta x0 x1) (absDelta y0 y1) k j := by
  obtain ⟨px, py⟩ := p
  rw [mem_linePoints]
  constructor
  · rintro ⟨c, hc, hx, hy⟩
    obtain ⟨k, j, hk, halong, hround⟩ := exists_alongX_of_mem_lineCursors hdx hdy hc
    exact ⟨k, j, ⟨hk, hround.le hk, hx ▸ halong.x_eq, hy ▸ halong.y_eq⟩, hround⟩
  · rintro ⟨k, j, hoff, hround⟩
    obtain ⟨j', halong, hround'⟩ := exists_alongX_roundsDown hdx hdy k
    obtain rfl := hround.unique hround'
    refine ⟨_, ?_, halong.x_eq.trans hoff.x_eq.symm, halong.y_eq.trans hoff.y_eq.symm⟩
    rw [lineCursors_eq_map_range hdx hdy]
    exact List.mem_map_of_mem (List.mem_range.2 (Nat.lt_succ_iff.2 hoff.x_le))

/-- From the other end it plots in each column the point in the row that rounding up gives. -/
theorem mem_linePoints_reverse_alongX (hdx : 0 < absDelta x0 x1)
    (hdy : absDelta y0 y1 ≤ absDelta x0 x1) :
    p ∈ linePoints x1 y1 x0 y0 ↔ ∃ k j, AtOffset x0 y0 x1 y1 k j p ∧
      RoundsUp (absDelta x0 x1) (absDelta y0 y1) k j := by
  have hx := absDelta_comm x0 x1
  have hy := absDelta_comm y0 y1
  rw [mem_linePoints_alongX (hx ▸ hdx) (hx ▸ hy ▸ hdy), ← hx, ← hy]
  constructor
  · rintro ⟨k, j, hoff, hround⟩
    have hrev := hoff.reverse
    rw [← hx, ← hy] at hrev
    have hk : absDelta x0 x1 - (absDelta x0 x1 - k) = k := Nat.sub_sub_self (hx ▸ hoff.x_le)
    have hj : absDelta y0 y1 - (absDelta y0 y1 - j) = j := Nat.sub_sub_self (hy ▸ hoff.y_le)
    refine ⟨_, _, hrev, (roundsDown_sub_iff hrev.x_le hrev.y_le).1 ?_⟩
    rwa [hk, hj]
  · rintro ⟨k, j, hoff, hround⟩
    exact ⟨_, _, hoff.reverse, (roundsDown_sub_iff hoff.x_le hoff.y_le).2 hround⟩

/-! ### Symmetric, without a half, without a tie -/

/-- A line along x is symmetric exactly when no column's row is a half. -/
theorem lineSymmetric_iff_not_isHalf (hdx : 0 < absDelta x0 x1)
    (hdy : absDelta y0 y1 ≤ absDelta x0 x1) :
    LineSymmetric x0 y0 x1 y1 ↔
      ∀ k ≤ absDelta x0 x1, ∀ j, ¬ IsHalf (absDelta x0 x1) (absDelta y0 y1) k j := by
  constructor
  · intro hsymm k hk j hhalf
    have hdown := hhalf.roundsDown hdx
    obtain ⟨p, hoff⟩ := exists_atOffset hk (hdown.le hk)
    have hmem := (hsymm p).1 ((mem_linePoints_alongX hdx hdy).2 ⟨k, j, hoff, hdown⟩)
    obtain ⟨k', j', hoff', hup⟩ := (mem_linePoints_reverse_alongX hdx hdy).1 hmem
    obtain ⟨rfl, rfl⟩ := hoff.unique hoff'
    exact hhalf.not_roundsUp hup
  · intro hnone p
    rw [mem_linePoints_alongX hdx hdy, mem_linePoints_reverse_alongX hdx hdy]
    refine exists_congr fun k => exists_congr fun j => and_congr_right fun hoff => ?_
    exact roundsDown_iff_roundsUp hdx (hnone k hoff.x_le)

/-- The first test of R90 has no tie along x; the second has one exactly when the next column's row is
a half. -/
theorem AlongX.tie_iff_isHalf {c : LineCursor} (h : AlongX x0 y0 x1 y1 k j c) :
    (2 * c.err = -(absDelta y0 y1 : Int) ∨ 2 * c.err = (absDelta x0 x1 : Int)) ↔
      IsHalf (absDelta x0 x1) (absDelta y0 y1) (k + 1) j := by
  have hlower := h.lower
  have herr := h.err_eq_products
  unfold IsHalf
  rw [Nat.add_one_mul k]
  omega

/-- A line along x has a tie exactly when some column's row is a half. -/
theorem hasTie_iff_isHalf (hdx : 0 < absDelta x0 x1) (hdy : absDelta y0 y1 ≤ absDelta x0 x1) :
    hasTie x0 y0 x1 y1 ↔
      ∃ k ≤ absDelta x0 x1, ∃ j, IsHalf (absDelta x0 x1) (absDelta y0 y1) k j := by
  unfold hasTie
  simp only [abs_sub_eq_absDelta, lineCursors_eq_map_range hdx hdy, List.length_map,
    List.length_range, List.getElem?_map]
  constructor
  · rintro ⟨k, c, hc, hk, htie⟩
    obtain ⟨j, halong, -⟩ := exists_alongX_roundsDown hdx hdy k
    rw [List.getElem?_range (by omega), Option.map_some, Option.some.injEq] at hc
    rw [hc] at halong
    exact ⟨k + 1, by omega, j, halong.tie_iff_isHalf.1 htie⟩
  · rintro ⟨k, hk, j, hhalf⟩
    cases k with
    | zero =>
      unfold IsHalf at hhalf
      omega
    | succ k =>
      obtain ⟨j', halong, hround⟩ := exists_alongX_roundsDown hdx hdy k
      obtain rfl := hhalf.roundsDown_before hdx hdy hround
      refine ⟨k, _, ?_, by omega, halong.tie_iff_isHalf.2 hhalf⟩
      rw [List.getElem?_range (by omega), Option.map_some]

end Offset

/-! ### Every line -/

/-- A tie of a line is a tie of its mirror image, in the other test. -/
theorem hasTie_swap {x0 y0 x1 y1 : Nat} (h : hasTie x0 y0 x1 y1) : hasTie y0 x0 y1 x1 := by
  obtain ⟨k, c, hc, hk, htie⟩ := h
  refine ⟨k, c.swap, ?_, ?_, ?_⟩
  · rw [lineCursors_swap, List.getElem?_map, hc, Option.map_some]
  · rwa [lineCursors_swap, List.length_map]
  · simp only [LineCursor.swap]
    omega

theorem hasTie_swap_iff {x0 y0 x1 y1 : Nat} : hasTie y0 x0 y1 x1 ↔ hasTie x0 y0 x1 y1 :=
  ⟨hasTie_swap, hasTie_swap⟩

theorem mem_linePoints_swap_iff {x0 y0 x1 y1 : Nat} {p : Nat × Nat} :
    p.swap ∈ linePoints y0 x0 y1 x1 ↔ p ∈ linePoints x0 y0 x1 y1 := by
  rw [linePoints_swap]
  exact List.mem_map_of_injective Prod.swap_injective

theorem lineSymmetric_swap {x0 y0 x1 y1 : Nat} (h : LineSymmetric x0 y0 x1 y1) :
    LineSymmetric y0 x0 y1 x1 := fun p =>
  (mem_linePoints_swap_iff (p := p.swap)).trans ((h p.swap).trans mem_linePoints_swap_iff.symm)

theorem not_hasTie_self (x y : Nat) : ¬ hasTie x y x y := by
  rintro ⟨k, c, -, hk, -⟩
  simp [lineCursors_self] at hk

/-- A line is symmetric exactly when no pass of it has a tie, whatever its coordinates. -/
theorem not_hasTie_iff_lineSymmetric (x0 y0 x1 y1 : Nat) :
    ¬ hasTie x0 y0 x1 y1 ↔ LineSymmetric x0 y0 x1 y1 := by
  induction x0, y0, x1, y1 using line_cases with
  | point x y => exact iff_of_true (not_hasTie_self x y) fun _ => Iff.rfl
  | alongX hdx hdy =>
    rw [hasTie_iff_isHalf hdx hdy, lineSymmetric_iff_not_isHalf hdx hdy]
    simp only [not_exists, not_and]
  | mirror ih =>
    rw [← hasTie_swap_iff, ih]
    exact ⟨lineSymmetric_swap, lineSymmetric_swap⟩

/-- Settles O22. -/
theorem lineSymmetricIffTieFree : Obligations.LineSymmetricIffTieFree := fun _ _ _ _ =>
  not_hasTie_iff_lineSymmetric ..

/-- On an axis and on a diagonal no pass has a tie. -/
theorem not_hasTie_of_axis_or_diagonal (x0 y0 x1 y1 : Nat) :
    (absDelta x0 x1 = 0 ∨ absDelta y0 y1 = 0 ∨ absDelta x0 x1 = absDelta y0 y1) →
      ¬ hasTie x0 y0 x1 y1 := by
  induction x0, y0, x1, y1 using line_cases with
  | point x y => exact fun _ => not_hasTie_self x y
  | alongX hdx hdy =>
    intro hline htie
    obtain ⟨k, -, j, hhalf⟩ := (hasTie_iff_isHalf hdx hdy).1 htie
    exact not_isHalf_of_axis_or_diagonal hdx (by omega) hhalf
  | mirror ih => exact fun hline htie => ih (by omega) (hasTie_swap htie)

/-- Settles O21: these lines have no tie. -/
theorem axisAndDiagonalLinesSymmetric : Obligations.AxisAndDiagonalLinesSymmetric := by
  refine ⟨fun x0 y0 x1 y1 hline => ?symmetric, by decide, by decide⟩
  case symmetric =>
    rw [abs_sub_eq_absDelta, abs_sub_eq_absDelta] at hline
    refine (not_hasTie_iff_lineSymmetric ..).1 (not_hasTie_of_axis_or_diagonal x0 y0 x1 y1 ?_)
    unfold absDelta at hline ⊢
    omega

end Sys2Proof.Machine
end

section
/-! PROOFS. The work of each command (70_reset_and_hazards.md section 4). -/

namespace Sys2Proof.Machine

open Sys2Proof.Statements

/-! ### How many points a command plots -/

/-- An endpoint of a byte is less than 256 away. -/
theorem absDelta_toNat_lt (a b : Byte) : absDelta a.toNat b.toNat < 256 := by
  have := a.isLt
  have := b.isLt
  unfold absDelta
  omega

theorem length_linePoints_le (x0 y0 x1 y1 : Byte) :
    (linePoints x0.toNat y0.toNat x1.toNat y1.toNat).length ≤ 256 := by
  rw [length_linePoints]
  exact Nat.succ_le_of_lt (max_lt (absDelta_toNat_lt x0 x1) (absDelta_toNat_lt y0 y1))

theorem length_rectPoints (x y w h : Nat) : (rectPoints x y w h).length = w * h := by
  simp [rectPoints, List.length_flatMap, Nat.mul_comm]

theorem mul_toNat_le (w h : Byte) : w.toNat * h.toNat ≤ 65025 :=
  Nat.mul_le_mul (Nat.le_of_lt_succ w.isLt) (Nat.le_of_lt_succ h.isLt)

theorem length_edgeRows (x y w h : Nat) : (edgeRows x y w h).length = 2 * w := by
  simp [edgeRows, List.length_flatMap, Nat.mul_comm]

theorem length_edgeColumns (x y w h : Nat) : (edgeColumns x y w h).length = 2 * h := by
  simp [edgeColumns, List.length_flatMap, Nat.mul_comm]

/-- A border is plotted with its corners twice. -/
theorem length_borderPoints (x y w h : Nat) :
    (borderPoints x y w h).length = if w = 0 ∨ h = 0 then 0 else 2 * (w + h) := by
  rw [borderPoints]
  split_ifs with hne hempty hempty
  · omega
  · rw [List.length_append, length_edgeRows, length_edgeColumns, Nat.mul_add]
  · rfl
  · omega

theorem length_borderPoints_toNat (x y : Nat) (w h : Byte) :
    (borderPoints x y w.toNat h.toNat).length =
      if w = 0#8 ∨ h = 0#8 then 0 else 2 * (w.toNat + h.toNat) := by
  rw [length_borderPoints]
  refine if_congr (or_congr ?_ ?_) rfl rfl <;> rw [← BitVec.toNat_inj] <;> rfl

theorem length_borderPoints_le (x y : Nat) (w h : Byte) :
    (borderPoints x y w.toNat h.toNat).length ≤ 1020 := by
  have := w.isLt
  have := h.isLt
  rw [length_borderPoints]
  split_ifs <;> omega

/-- R112: a column of a legal font plots at most its seven rows. -/
theorem length_columnPoints_le {col : Byte} (h : col.getLsbD 7 = false) (x y : Nat) :
    (columnPoints col x y).length ≤ 7 := by
  rw [columnPoints, List.length_map, Config.glyphBits, List.range_succ, List.filter_append]
  simp only [List.filter_singleton, h, cond_false, List.append_nil]
  exact (List.length_filter_le ..).trans_eq List.length_range

theorem length_glyphPoints_le {p : Params} (hp : p.wf = true) (x y : Nat) (ch : Byte) :
    (glyphPoints p x y ch).length ≤ 35 := by
  rw [glyphPoints, List.length_flatMap]
  refine (List.sum_le_card_nsmul _ 7 fun n hn => ?_).trans_eq (by simp)
  obtain ⟨i, -, rfl⟩ := List.mem_map.1 hn
  exact length_columnPoints_le (glyphBit_seven hp ch i) ..

/-! ### How many transactions a device command issues -/

theorem Sends.exists_trace {s t : State} {ps : List (List Byte)} {n : Nat} (h : Sends s t ps)
    (hlen : ps.length ≤ n) : ∃ new, t.trace = s.trace ++ new ∧ new.length ≤ n :=
  ⟨_, h.trace, (length_sentRecords s ps).trans_le hlen⟩

theorem length_flushPayloads (p : Params) (m : Memory) :
    (flushPayloads p m).length = p.windowSeq.length + 64 := by
  rw [flushPayloads, List.length_append, List.length_map, List.length_map, List.length_range]

/-- R136: INIT with legal parameters issues the probe and at most the 13 configuration commands. -/
theorem exec_init_work {s : State} (hp : s.cfg.wf = true) :
    ∃ t new, exec .init s = .next t ∧ t.trace = s.trace ++ new ∧ new.length ≤ 14 := by
  obtain ⟨ps, hsends, hlen⟩ := initDevice_sends s
  rw [length_initSeq_of_wf hp] at hlen
  obtain ⟨new, htrace, hnew⟩ := hsends.exists_trace hlen
  exact ⟨_, new, exec_init s, htrace, hnew⟩

/-- R137: DISPLAY issues at most a whole flush. -/
theorem exec_display_work (s : State) :
    ∃ t new, exec .display s = .next t ∧ t.trace = s.trace ++ new ∧
      new.length ≤ s.cfg.windowSeq.length + 64 := by
  obtain ⟨k, hsends⟩ := displayFrame_sends s
  have hlen := List.length_take_le' k (flushPayloads s.cfg s.fb)
  rw [length_flushPayloads] at hlen
  obtain ⟨new, htrace, hnew⟩ := hsends.exists_trace hlen
  exact ⟨_, new, exec_display s, htrace, hnew⟩

/-- R196: every other command issues no transaction. -/
theorem exec_work_of_not_device {i : Instr} (hinit : i ≠ .init) (hdisplay : i ≠ .display)
    (s : State) : ∃ t, exec i s = .next t ∧ t.trace = s.trace := by
  obtain ⟨t, ht, hr⟩ := exec_total i s
  exact ⟨t, ht, (hr.bus_of_not_device hinit hdisplay).1⟩

/-- Settles O41: each command's equation with the count of its plots, writes or transactions. -/
theorem workPerCommandBounded : Obligations.WorkPerCommandBounded :=
  ⟨exec_clear, fun s x y k => exec_setPixel x y k s,
    fun s x0 y0 x1 y1 k =>
      ⟨exec_drawLine x0 y0 x1 y1 k s, length_linePoints .., length_linePoints_le x0 y0 x1 y1⟩,
    fun s x y w h k => ⟨exec_fillRect x y w h k s, length_rectPoints .., mul_toNat_le w h⟩,
    fun s x y w h k => ⟨exec_drawRect x y w h k s, length_borderPoints_toNat ..,
      length_borderPoints_le ..⟩,
    fun s x y ch hp => ⟨exec_drawChar x y ch s, length_glyphPoints_le hp ..⟩,
    fun _ => exec_init_work, exec_display_work,
    fun _ s hinit hdisplay => exec_work_of_not_device hinit hdisplay s⟩

end Sys2Proof.Machine
end
